-- ==== Sys2Proof/Word.lean ====
section
/-! DEFINITION. The word types of the block and the few types that describe what it is fed: the bytes of the
wire, the 16-bit and 64-bit scalars (00_scope.md R9: every value is an unsigned integer of a stated width). -/

namespace Sys2Proof

/-- A byte as the byte source delivers it (R9, R43). -/
abbrev Byte := BitVec 8

/-- A 16-bit field: a checksum word, a raw speed, a stored distance, a quality (R9, R11). -/
abbrev Half := BitVec 16

/-- The error counter's type, the source's `u64` (R28). -/
abbrev Count := BitVec 64

end Sys2Proof
end

