-- ==== Sys2Proof/Config.lean ====
section
/-! DEFINITION. The parameters of R5 and the free values. A parameter the document fixes is a constant; a
parameter the spec decides (92_eei_decisions.md) is a field of `Config` with the spec's value as its default. -/

namespace Sys2Proof

/-- U1, D17: what one step of a snapshot reads; under `slot` one step of a commit writes one slot, or the speed (R55). -/
inductive SnapAtomicity where
  | table
  | slot
  deriving DecidableEq, Repr

/-- What one step of a commit writes. R5 and D16 give `packet` only; `slot` is the model's own value, a commit of five
steps beside `table` snapshots (DESIGN CHOICE, log 24). -/
inductive CommitAtomicity where
  | packet
  | slot
  deriving DecidableEq, Repr

/-- The decided parameters of R5, each with the value the spec decides for it (log 15). The operations that depend on
one take a `Config`, whose default is `Config.block`. -/
structure Config where
  /-- `DIST_HI_MASK` (C1, D10): the mask on the distance's high byte. -/
  distHiMask : Byte := 0x3F#8
  /-- `ACC_WIDTH` (D24): bits of the checksum accumulator. -/
  accWidth : Nat := 32
  /-- `ERRCNT_WIDTH` (D13): the counter saturates at `2^errcntWidth - 1`. -/
  errcntWidth : Nat := 64
  /-- `SPEED_RESET` (D12). -/
  speedReset : Half := 0x0000#16
  /-- `COMMIT_ATOMICITY` (D16). `SNAP_ATOMICITY = slot` makes a commit five steps whatever this field is (R55, C3). -/
  commitAtomicity : CommitAtomicity := .packet
  /-- `SNAP_ATOMICITY` (D17). -/
  snapAtomicity : SnapAtomicity := .table
  /-- `HAS_DESYNC_COUNTER` (D14): the spec gives no counter for the value `true`, so nothing reads this field. -/
  hasDesyncCounter : Bool := false
  /-- `HAS_SLOT_STAMP` (D15): the spec gives no stamp for the value `true`, so nothing reads this field. -/
  hasSlotStamp : Bool := false
  deriving DecidableEq, Repr

/-- The block this spec describes: every decided parameter at the spec's value. -/
def Config.block : Config := {}

/-- The values the spec allows for a width: an accumulator of 26 bits or more (R103, D24), a counter that fits the
`u64` of the API (R28; log 15). -/
abbrev Config.wf (c : Config) : Prop := 26 ≤ c.accWidth ∧ c.errcntWidth ≤ 64

/-- `START_BYTE` (R5). -/
abbrev Config.startByte : Byte := 0xFA#8

/-- `INDEX_LO` (R5). -/
abbrev Config.indexLo : Byte := 0xA0#8

/-- `INDEX_HI` (R5). -/
abbrev Config.indexHi : Byte := 0xF9#8

/-- `N_SLOTS` (R5). -/
abbrev Config.nSlots : Nat := 360

/-- `PAYLOAD_LEN` (R5). -/
abbrev Config.payloadLen : Nat := 20

/-- `FRAME_LEN` (R5). -/
abbrev Config.frameLen : Nat := 22

/-- FREE VALUE: `idx` after the n-th `RESET` event (R32 "unspecified", D20; log 4). -/
opaque Config.freeIdx : Nat → Byte

/-- FREE VALUE: `pcount` after the n-th `RESET` event (R32 "unspecified", D20; log 4). -/
opaque Config.freePcount : Nat → Fin 20

/-- FREE VALUE: `payload[0..19]` after the n-th `RESET` event (R32 "unspecified", D20; log 4). -/
opaque Config.freePayload : Nat → Vector Byte 20

end Sys2Proof
end

