-- ==== Sys2Proof/Syntax.lean ====
section
/-! DEFINITION. The events and operations of the block as data: the FSM state names, the wire forms, the coded
events a run is made of, and `Instr`, one constructor per mnemonic of spec/opcode_table.json. -/

namespace Sys2Proof

/-- `st` (R21). The table's `when` column names it, so decoding depends on it. -/
inductive FsmState where
  | seekStart
  | readIndex
  | readPayload
  | halted
  deriving DecidableEq, Repr

/-- A sample group `gk = (x0, x1, x2, x3)`, four bytes in arrival order (R64). -/
structure SampleGroup where
  x0 : Byte
  x1 : Byte
  x2 : Byte
  x3 : Byte
  deriving DecidableEq, Repr

/-- The fields of a 22-byte wire frame (R60, R61). The start byte is the constant 0xFA; `checksum` is the
TRANSMITTED value, any 16 bits, which need not be the right one. -/
structure Frame where
  index : Byte
  speed : Half
  g0 : SampleGroup
  g1 : SampleGroup
  g2 : SampleGroup
  g3 : SampleGroup
  checksum : Half
  deriving DecidableEq, Repr

/-- The operations of spec/opcode_table.json, one constructor per mnemonic. `b` is the byte of the `RX b` event.
`commit` and `drop` are the two outcomes of `rpLast` (R120, R122): the same `RX b` event with the checksum verdict
of the table's `when` column (log 10). `frame` and `sample` are the two wire forms (R61, R64; logs 11, 12). -/
inductive Instr where
  | ssStart
  | ssSkip (b : Byte)
  | riIndex (b : Byte)
  | riRestart
  | riAbort (b : Byte)
  | rpData (b : Byte)
  | rpLast (b : Byte)
  | commit (b : Byte)
  | drop (b : Byte)
  | haltIgnore (b : Byte)
  | rxfail
  | close
  | reset
  | snapshot
  | speed
  | errcnt
  | frame (f : Frame)
  | sample (g : SampleGroup)
  deriving DecidableEq, Repr

/-- A coded item of a run, as bits. `event` is the 11-bit event word of R68; `sample` and `frame` are the 4 and 22
bytes of the two wire forms, byte n at bits 8n+7..8n (log 14); `other` is any other length, which is no format. -/
inductive Code where
  | event (w : BitVec 11)
  | sample (w : BitVec 32)
  | frame (w : BitVec 176)
  | other (nbits : Nat) (w : Nat)
  deriving DecidableEq, Repr

/-- The roles of R162. -/
inductive Role where
  | producer
  | consumer
  | owner
  deriving DecidableEq, Repr

/-- Which role applies the event (R162): the byte operations and the wire forms are the producer's. -/
def Instr.role : Instr → Role
  | .ssStart => .producer
  | .ssSkip _ => .producer
  | .riIndex _ => .producer
  | .riRestart => .producer
  | .riAbort _ => .producer
  | .rpData _ => .producer
  | .rpLast _ => .producer
  | .commit _ => .producer
  | .drop _ => .producer
  | .haltIgnore _ => .producer
  | .rxfail => .producer
  | .close => .owner
  | .reset => .owner
  | .snapshot => .consumer
  | .speed => .consumer
  | .errcnt => .consumer
  | .frame _ => .producer
  | .sample _ => .producer

end Sys2Proof
end

