-- ==== Sys2Proof/WellFormed.lean ====
section
/-! DEFINITION. Which terms of `Instr` the encoding admits: the byte ranges of R66 and the index range of a
frame (R60). Every other operand takes every value. -/

namespace Sys2Proof

/-- `0xA0 <= b <= 0xF9`, a valid index byte (R5, R66). -/
abbrev IsIndex (b : Byte) : Prop := Config.indexLo ≤ b ∧ b ≤ Config.indexHi

/-- The operand ranges of R66 and R60. -/
def Instr.wf : Instr → Bool
  | .ssStart => true
  | .ssSkip b => decide (b ≠ Config.startByte)
  | .riIndex b => decide (IsIndex b)
  | .riRestart => true
  | .riAbort b => decide (b ≤ 0x9F#8 ∨ 0xFB#8 ≤ b)
  | .rpData _ => true
  | .rpLast _ => true
  | .commit _ => true
  | .drop _ => true
  | .haltIgnore _ => true
  | .rxfail => true
  | .close => true
  | .reset => true
  | .snapshot => true
  | .speed => true
  | .errcnt => true
  | .frame f => decide (IsIndex f.index)
  | .sample _ => true

end Sys2Proof
end

