-- ==== Sys2Proof/Decode.lean ====
section
/-! DEFINITION. Decoding a coded event in its context, and encoding it back. The byte of an `RX` event does not
decide the operation alone: the FSM state and the payload count do (R66), and for the outcome rows of
spec/opcode_table.json the checksum verdict. That context is the table's `when` column, `Ctx`. -/

namespace Sys2Proof

/-! ### Bytes and byte pairs -/

/-- The 16-bit little-endian value of two bytes, first received first (R11, R42). -/
def le16 (lo hi : Byte) : Half := lo.setWidth 16 ||| (hi.setWidth 16 <<< 8)

/-- Bits 7..0, the byte that is sent first (R11). -/
def loByte (v : Half) : Byte := v.extractLsb' 0 8

/-- Bits 15..8, the byte that is sent second (R11). -/
def hiByte (v : Half) : Byte := v.extractLsb' 8 8

/-- Bytes in arrival order as one number, the first byte in bits 7..0 (log 14). -/
def packBytes : List Byte → Nat
  | [] => 0
  | b :: rest => b.toNat + 256 * packBytes rest

/-- The first `n` bytes of a number, bits 7..0 first (log 14). -/
def unpackBytes : Nat → Nat → List Byte
  | 0, _ => []
  | n + 1, w => BitVec.ofNat 8 w :: unpackBytes n (w / 256)

/-- The four bytes of a sample group in arrival order (R64). -/
def SampleGroup.bytes (g : SampleGroup) : List Byte := [g.x0, g.x1, g.x2, g.x3]

/-- The 22 bytes of a frame in arrival order (R61). -/
def Frame.bytes (f : Frame) : List Byte :=
  [Config.startByte, f.index, loByte f.speed, hiByte f.speed] ++ f.g0.bytes ++ f.g1.bytes ++ f.g2.bytes ++
    f.g3.bytes ++ [loByte f.checksum, hiByte f.checksum]

/-! ### Byte classes -/

/-- The partition of the byte values of R67. -/
inductive ByteClass where
  | low
  | index
  | start
  | high
  deriving DecidableEq, Repr

/-- The class of a byte (R67): 0x00..0x9F, 0xA0..0xF9, 0xFA, 0xFB..0xFF. -/
def byteClass (b : Byte) : ByteClass :=
  if b < Config.indexLo then .low
  else if b ≤ Config.indexHi then .index
  else if b = Config.startByte then .start
  else .high

/-! ### Event words -/

/-- The event kinds of R68. -/
inductive EventKind where
  | rx
  | rxfail
  | close
  | reset
  | snapshot
  | speed
  | errcnt
  deriving DecidableEq, Repr

/-- The three kind bits of R68. -/
def EventKind.bits : EventKind → BitVec 3
  | .rx => 0#3
  | .rxfail => 1#3
  | .close => 2#3
  | .reset => 3#3
  | .snapshot => 4#3
  | .speed => 5#3
  | .errcnt => 6#3

/-- `{kind[2:0], data[7:0]}` (R68). -/
def eventWord (k : EventKind) (data : Byte) : BitVec 11 := k.bits ++ data

/-- Bits 10..8 of an event word; `kind = 7` does not exist (R68). -/
def wordKind (w : BitVec 11) : Option EventKind :=
  match (w.extractLsb' 8 3).toNat with
  | 0 => some .rx
  | 1 => some .rxfail
  | 2 => some .close
  | 3 => some .reset
  | 4 => some .snapshot
  | 5 => some .speed
  | 6 => some .errcnt
  | _ => none

/-- Bits 7..0 of an event word (R68). -/
def wordData (w : BitVec 11) : Byte := w.extractLsb' 0 8

/-- The event word of `RX b` (R68). -/
def rxWord (b : Byte) : BitVec 11 := eventWord .rx b

/-! ### Decoding -/

/-- What decides the operation besides the word: the table's `when` column. `verdict` is its `checksum_ok` entry:
`none` asks for the classification of R66, `some ok` for the outcome rows COMMIT and DROP (log 10). -/
structure Ctx where
  st : FsmState
  pcount : Fin 20
  verdict : Option Bool
  deriving DecidableEq, Repr

/-- The context right after reset: hunting for a start byte (R32, R171). -/
def Ctx.afterReset : Ctx := ⟨.seekStart, 0, none⟩

/-- The eight byte operations of R66. -/
inductive RxOp where
  | ssStart
  | ssSkip
  | riIndex
  | riRestart
  | riAbort
  | rpData
  | rpLast
  | haltIgnore
  deriving DecidableEq, Repr

/-- The classification of a received byte (R66). -/
def classify (st : FsmState) (pcount : Fin 20) (b : Byte) : RxOp :=
  match st with
  | .seekStart => if b = Config.startByte then .ssStart else .ssSkip
  | .readIndex =>
    match byteClass b with
    | .index => .riIndex
    | .start => .riRestart
    | .low => .riAbort
    | .high => .riAbort
  | .readPayload => if pcount.val ≤ 18 then .rpData else .rpLast
  | .halted => .haltIgnore

/-- The operation with its operand; `RP.LAST` is named by its outcome where the verdict is given. -/
def RxOp.toInstr (op : RxOp) (verdict : Option Bool) (b : Byte) : Instr :=
  match op with
  | .ssStart => .ssStart
  | .ssSkip => .ssSkip b
  | .riIndex => .riIndex b
  | .riRestart => .riRestart
  | .riAbort => .riAbort b
  | .rpData => .rpData b
  | .rpLast =>
    match verdict with
    | none => .rpLast b
    | some true => .commit b
    | some false => .drop b
  | .haltIgnore => .haltIgnore b

/-- Why bits are no coded event. -/
inductive DecodeError where
  /-- An event word of kind 7 (R68). -/
  | noSuchKind
  /-- 22 bytes that do not begin 0xFA and an index byte (R60). -/
  | notAFrame
  /-- A length that is neither an event word nor one of the two wire forms. -/
  | noSuchFormat
  deriving DecidableEq, Repr

/-- The fields of 4 bytes (R64). -/
def groupOfBytes : List Byte → Option SampleGroup
  | [x0, x1, x2, x3] => some ⟨x0, x1, x2, x3⟩
  | _ => none

/-- The fields of 22 bytes (R60, R61): the first must be 0xFA, the second an index byte. -/
def frameOfBytes : List Byte → Option Frame
  | [s, i, s0, s1, a0, a1, a2, a3, b0, b1, b2, b3, c0, c1, c2, c3, d0, d1, d2, d3, k0, k1] =>
    if s = Config.startByte ∧ IsIndex i then
      some { index := i, speed := le16 s0 s1, g0 := ⟨a0, a1, a2, a3⟩, g1 := ⟨b0, b1, b2, b3⟩,
             g2 := ⟨c0, c1, c2, c3⟩, g3 := ⟨d0, d1, d2, d3⟩, checksum := le16 k0 k1 }
    else none
  | _ => none

/-- The operation an event word stands for (R66, R68). The data of kinds 1 to 6 are ignored. -/
def decodeEvent (c : Ctx) (w : BitVec 11) : Except DecodeError Instr :=
  match wordKind w with
  | some .rx => .ok ((classify c.st c.pcount (wordData w)).toInstr c.verdict (wordData w))
  | some .rxfail => .ok .rxfail
  | some .close => .ok .close
  | some .reset => .ok .reset
  | some .snapshot => .ok .snapshot
  | some .speed => .ok .speed
  | some .errcnt => .ok .errcnt
  | none => .error .noSuchKind

/-- Total decoding of any coded item. -/
def decode (c : Ctx) : Code → Except DecodeError Instr
  | .event w => decodeEvent c w
  | .sample w =>
    match groupOfBytes (unpackBytes 4 w.toNat) with
    | some g => .ok (.sample g)
    | none => .error .noSuchFormat
  | .frame w =>
    match frameOfBytes (unpackBytes 22 w.toNat) with
    | some f => .ok (.frame f)
    | none => .error .notAFrame
  | .other _ _ => .error .noSuchFormat

/-- The context in which a row of spec/opcode_table.json applies: its `when` column. -/
def Instr.applies (i : Instr) (c : Ctx) : Bool :=
  match i with
  | .ssStart => decide (c.st = .seekStart)
  | .ssSkip _ => decide (c.st = .seekStart)
  | .riIndex _ => decide (c.st = .readIndex)
  | .riRestart => decide (c.st = .readIndex)
  | .riAbort _ => decide (c.st = .readIndex)
  | .rpData _ => decide (c.st = .readPayload ∧ c.pcount.val ≤ 18)
  | .rpLast _ => decide (c.st = .readPayload ∧ c.pcount.val = 19 ∧ c.verdict = none)
  | .commit _ => decide (c.st = .readPayload ∧ c.pcount.val = 19 ∧ c.verdict = some true)
  | .drop _ => decide (c.st = .readPayload ∧ c.pcount.val = 19 ∧ c.verdict = some false)
  | .haltIgnore _ => decide (c.st = .halted)
  | .rxfail => true
  | .close => true
  | .reset => true
  | .snapshot => true
  | .speed => true
  | .errcnt => true
  | .frame _ => true
  | .sample _ => true

/-! ### Encoding -/

/-- The words of an operation (R68, R61, R64); the ignored data bits are written as 0. -/
def encode : Instr → Code
  | .ssStart => .event (rxWord Config.startByte)
  | .ssSkip b => .event (rxWord b)
  | .riIndex b => .event (rxWord b)
  | .riRestart => .event (rxWord Config.startByte)
  | .riAbort b => .event (rxWord b)
  | .rpData b => .event (rxWord b)
  | .rpLast b => .event (rxWord b)
  | .commit b => .event (rxWord b)
  | .drop b => .event (rxWord b)
  | .haltIgnore b => .event (rxWord b)
  | .rxfail => .event (eventWord .rxfail 0#8)
  | .close => .event (eventWord .close 0#8)
  | .reset => .event (eventWord .reset 0#8)
  | .snapshot => .event (eventWord .snapshot 0#8)
  | .speed => .event (eventWord .speed 0#8)
  | .errcnt => .event (eventWord .errcnt 0#8)
  | .frame f => .frame (BitVec.ofNat 176 (packBytes f.bytes))
  | .sample g => .sample (BitVec.ofNat 32 (packBytes g.bytes))

/-! ### Words as spec/opcode_table.json numbers them -/

/-- The coded item of `nbits` bits (in whole bytes) that are `w`: up to 16 bits an event word, 32 a sample group,
176 a frame (log 13). -/
def codeOfBits (nbits w : Nat) : Code :=
  if nbits ≤ 16 then (if w < 2048 then .event (BitVec.ofNat 11 w) else .other nbits w)
  else if nbits = 32 then (if w < 2 ^ 32 then .sample (BitVec.ofNat 32 w) else .other nbits w)
  else if nbits = 176 then (if w < 2 ^ 176 then .frame (BitVec.ofNat 176 w) else .other nbits w)
  else .other nbits w

/-- The instruction the decoder reads from a table row's bits. The table gives several operations the SAME bits and
tells them apart by its `when` column only, which a number cannot carry: this reads them in the context right
after reset (log 13). -/
def decodeTableWord (nbits w : Nat) : Option Instr :=
  (decode Ctx.afterReset (codeOfBits nbits w)).toOption

end Sys2Proof
end

