-- ==== Sys2Proof/Machine/State.lean ====
section
/-! DEFINITION. The state of the block: the ten items of R20, and the model's own three fields (the events still to
come, the value the last event returned, a counter of draws). Plain data. -/

namespace Sys2Proof.Machine

open Sys2Proof

/-- "a single angle's (distance, quality) reading" (R12): the `dist` and `qual` fields of a set slot (R25). -/
structure Sample where
  dist : Half
  qual : Half
  deriving DecidableEq, Repr

/-- One slot: "the latest DecodedSample or an unset marker" (R25). `none` is `set = 0`; the `dist` and `qual` of an
unset slot are unspecified and read by no rule (R26), so an unset slot holds none (log 5). -/
abbrev Slot := Option Sample

/-- The ScanTable (R40): the set slots as (angle, sample) cells, angles strictly rising; an angle not listed is
unset (log 6). -/
structure Memory where
  cells : List (Nat × Sample)
  deriving DecidableEq, Repr

/-- The canonical form: angles strictly rising, every angle an address of R40. No cell can equal what an unlisted
angle reads as, because a cell holds a sample and an unlisted angle reads as the unset marker. -/
abbrev Memory.wf (m : Memory) : Prop :=
  m.cells.Pairwise (fun x y => x.1 < y.1) ∧ ∀ c ∈ m.cells, c.1 < Config.nSlots

/-- `halt_cause` (R29). -/
inductive HaltCause where
  | none
  | closed
  | ioFailure
  deriving DecidableEq, Repr

/-- The value an event returns to the agent that applied it (R10 `out <- v`; R130, R133, R134). -/
inductive Output where
  /-- The 360 pairs of a `SNAPSHOT`, entry `a` for angle `a`. -/
  | snapshot (entries : List (Half × Half))
  | speed (raw : Half)
  | errCount (n : Count)
  deriving DecidableEq, Repr

/-- The state (R20), with the model's own `out` (log 2), `pending` (log 1) and `draws` (log 4). -/
structure State where
  /-- `st` (R21). -/
  st : FsmState
  /-- `pcount` (R22), 5 bits with the values 0..19 (log 7). -/
  pcount : Fin 20
  /-- `idx` (R23). -/
  idx : Byte
  /-- `payload[0..19]` (R24). -/
  payload : Vector Byte 20
  /-- `slot[0..359]` (R25, R40). -/
  slots : Memory
  /-- `speed_raw` (R27). -/
  speedRaw : Half
  /-- `err_count` (R28). -/
  errCount : Count
  /-- `halt_cause` (R29). -/
  haltCause : HaltCause
  /-- MODEL'S OWN: what the last event returned. -/
  out : Option Output
  /-- MODEL'S OWN: the events of the run still to come, in their serialised order (R31, R54). -/
  pending : List Code
  /-- MODEL'S OWN: how many `RESET` events have drawn free values. -/
  draws : Nat
  deriving DecidableEq, Repr

/-- Why the machine stops with a fault. -/
inductive Fault where
  /-- Raised by a commit whose `idx` is no index byte: R62 gives it no rotation index and R40 no slot. SAFE: the model
  stops where the spec gives no effect; no state a `RESET` leads to reaches it (R33.1; log 8). -/
  | indexOutOfRange
  deriving DecidableEq, Repr

/-- Why there is no meaning. -/
inductive Refusal where
  /-- Raised by an arm of `exec` whose instruction has no meaning yet. SAFE. No arm of this model raises it. -/
  | notModelled (mnemonic : String)
  /-- Raised by an operation applied in a state that R66 gives another operation in. SAFE: the event does not exist
  (log 9); `step` never raises it. -/
  | notApplicable
  /-- Raised by `step` on an event word of kind 7: "`kind = 7` does not exist" (R68). SAFE (log 13). -/
  | noSuchEvent
  /-- Raised by `step` on 22 bytes that are no frame (R60), or on a length that is no format. SAFE (log 13). -/
  | notACodedEvent
  deriving DecidableEq, Repr

/-- The block right after `RESET` (R32). `idx`, `pcount` and `payload` are unspecified there: the zeros are a DESIGN
CHOICE (log 3). No event is pending and nothing has been returned or drawn (logs 1, 2, 4). -/
def State.reset : State where
  st := .seekStart
  pcount := 0
  idx := 0x00#8
  payload := Vector.replicate 20 0x00#8
  slots := ⟨[]⟩
  speedRaw := Config.block.speedReset
  errCount := 0
  haltCause := .none
  out := none
  pending := []
  draws := 0

end Sys2Proof.Machine
end

