-- ==== Sys2Proof/Machine/Operands.lean ====
section
/-! DEFINITION. The operand forms: the bitfield extractor of 42_decode_extract.md as pure functions of the staged
bytes (R110 to R117, R62 to R65), and the readings of the speed that are applied outside the block (R112). -/

namespace Sys2Proof.Machine

open Sys2Proof

/-- Distance with a given mask on the high byte (R113, D10): `x0 | ((x1 & mask) << 8)`. -/
def distanceWith (mask : Byte) (x0 x1 : Byte) : Half := le16 x0 (x1 &&& mask)

/-- `dist_k` with the spec's mask 0x3F (R113, C1): 14 bits, zero-extended to 16. -/
def distance (x0 x1 : Byte) : Half := distanceWith Config.block.distHiMask x0 x1

/-- `qual_k = x2 | (x3 << 8)` (R114). -/
def quality (x2 x3 : Byte) : Half := le16 x2 x3

/-- The sample a group of four bytes decodes to (R113, R114), with the parameter `DIST_HI_MASK`. Every value is
published (R117). -/
def decodedGroup (g : SampleGroup) (cfg : Config := Config.block) : Sample :=
  ⟨distanceWith cfg.distHiMask g.x0 g.x1, quality g.x2 g.x3⟩

/-- The staging bytes of group `gk` (R24, R64). -/
def groupOf (p : Vector Byte 20) (k : Fin 4) : SampleGroup :=
  ⟨p[2 + 4 * k.val], p[3 + 4 * k.val], p[4 + 4 * k.val], p[5 + 4 * k.val]⟩

/-- Sample `k` of the staged packet (R113, R114). -/
def sampleOf (p : Vector Byte 20) (k : Fin 4) (cfg : Config := Config.block) : Sample := decodedGroup (groupOf p k) cfg

/-- `speed_raw_new = payload[0] | (payload[1] << 8)` (R111). -/
def speedOf (p : Vector Byte 20) : Half := le16 p[0] p[1]

/-- `transmitted_checksum = payload[18] | (payload[19] << 8)`, all 16 bits (R65). -/
def transmittedChecksum (p : Vector Byte 20) : Half := le16 p[18] p[19]

/-- `rotation_index = idx - 0xA0` (R62); read only where `idx` is an index byte. -/
def rotationIndex (idx : Byte) : Nat := idx.toNat - Config.indexLo.toNat

/-- `angle_k = m*4 + k` (R115). -/
def angleOf (idx : Byte) (k : Fin 4) : Nat := rotationIndex idx * 4 + k.val

/-- The speed in RPM, `speed_raw / 64`, an exact rational (R112). -/
def rpm (raw : Half) : Rat := (raw.toNat : Rat) / 64

/-- The `f64` the source's API returns for the speed, as binary64 bits (R112; G5, log 21): sign 0, exponent
`e - 6 + 1023` and fraction `(raw - 2^e) * 2^(52-e)` where `e` is the place of the leading bit; +0.0 for raw 0. -/
def rpmBinary64 (raw : Half) : BitVec 64 :=
  let n := raw.toNat
  let e := Nat.log2 n
  if n = 0 then 0#64
  else BitVec.ofNat 64 ((e + 1017) * 2 ^ 52 + (n - 2 ^ e) * 2 ^ (52 - e))

/-- The value of a positive normal binary64 word, or 0 of the word +0.0 (G5). -/
def binary64Value (w : BitVec 64) : Rat :=
  if w = 0#64 then 0
  else (1 + (w.extractLsb' 0 52).toNat / (2 : Rat) ^ 52) *
    (2 : Rat) ^ (((w.extractLsb' 52 11).toNat : Int) - 1023)

end Sys2Proof.Machine
end

