-- ==== Sys2Proof/Machine/Checksum.lean ====
section
/-! DEFINITION. The checksum validator of 41_checksum.md: a pure function used inside the RP.LAST step. -/

namespace Sys2Proof.Machine

open Sys2Proof

/-- The checksum buffer (R100): the start byte, `idx`, and the first 18 payload bytes, unmasked. -/
def checksumBuf (idx : Byte) (p : Vector Byte 20) : List Byte :=
  Config.startByte :: idx :: p.toList.take 18

/-- The little-endian words of a byte list (R101). -/
def wordsOf : List Byte → List Half
  | lo :: hi :: rest => le16 lo hi :: wordsOf rest
  | _ => []

/-- One step of the fold, `acc = (acc << 1) + word`, in an accumulator of `width` bits (R102). -/
def foldStep (width : Nat) (acc : BitVec width) (w : Half) : BitVec width := (acc <<< 1) + w.setWidth width

/-- The fold from 0 over the words in order (R102). -/
def foldWords (width : Nat) (ws : List Half) : BitVec width := ws.foldl (foldStep width) 0#width

/-- `c = (acc & 0x7FFF) + (acc >> 15)`, then `c & 0x7FFF` (R104): the 15-bit checksum of an accumulator. -/
def finalFold {width : Nat} (acc : BitVec width) : BitVec 15 :=
  ((acc &&& BitVec.ofNat width 0x7FFF) + (acc >>> 15)).setWidth 15

/-- `cks(buf)` (R101, R102, R104) with the parameter `ACC_WIDTH` (R103). -/
def cks (buf : List Byte) (cfg : Config := Config.block) : BitVec 15 := finalFold (foldWords cfg.accWidth (wordsOf buf))

/-- Validation (R105): the 15-bit checksum zero-extended to 16 bits against all 16 transmitted bits. -/
def checksumOk (idx : Byte) (p : Vector Byte 20) (cfg : Config := Config.block) : Bool :=
  (cks (checksumBuf idx p) cfg).setWidth 16 == transmittedChecksum p

end Sys2Proof.Machine
end

