-- ==== Sys2Proof/Machine/Ops.lean ====
section
/-! DEFINITION. The shared operations: reading and writing the ScanTable, taking an anomaly, the commit of R120, the
end of a frame, and how operations are guarded and put in sequence. -/

namespace Sys2Proof.Machine

open Sys2Proof

/-- The answer of a meaning. -/
abbrev Result := Host.Outcome State Fault Refusal

/-! ### The ScanTable (R40) -/

/-- The slot of an angle among cells; an angle not listed is unset (R26). -/
def readCells : List (Nat × Sample) → Nat → Slot
  | [], _ => none
  | (k, v) :: rest, a => if a = k then some v else readCells rest a

/-- Cells with the slot of an angle replaced whole, still in rising order (R10 `MemWrite`, R47). -/
def writeCells : List (Nat × Sample) → Nat → Sample → List (Nat × Sample)
  | [], a, v => [(a, v)]
  | (k, w) :: rest, a, v =>
    if a < k then (a, v) :: (k, w) :: rest
    else if a = k then (a, v) :: rest
    else (k, w) :: writeCells rest a v

/-- `slot[a]`. -/
def Memory.read (m : Memory) (a : Nat) : Slot := readCells m.cells a

/-- `slot[a] <- (set = 1, dist, qual)`, all three fields together (R10). -/
def Memory.write (m : Memory) (a : Nat) (v : Sample) : Memory := ⟨writeCells m.cells a v⟩

/-- The table with every `set` bit 0 (R140). -/
def Memory.cleared : Memory := ⟨[]⟩

/-- What a consumer is shown of a slot: `(dist, qual)`, or `(0, 0)` where it is unset (R130, R131). -/
def shown : Slot → Half × Half
  | none => (0#16, 0#16)
  | some v => (v.dist, v.qual)

/-- The 360 entries of a snapshot in angle order (R130). -/
def snapshotOf (m : Memory) : List (Half × Half) :=
  (List.range Config.nSlots).map fun a => shown (m.read a)

/-! ### Anomalies (60_exceptions.md) -/

/-- The four anomalies of R150. -/
inductive Anomaly where
  | startNotFound
  | indexInvalid
  | checksumMismatch
  | ioFailure
  deriving DecidableEq, Repr

/-- The spec's own numeric codes (R150, D21); no port carries them. -/
def Anomaly.code : Anomaly → Nat
  | .startNotFound => 1
  | .indexInvalid => 2
  | .checksumMismatch => 3
  | .ioFailure => 4

/-- The counter's last value, where it stays (R28, D13), with the parameter `ERRCNT_WIDTH`: a narrower counter is the
low bits of the `u64` of the API (log 15). -/
def errCountMax (cfg : Config := Config.block) : Count := BitVec.ofNat 64 (2 ^ cfg.errcntWidth - 1)

/-- `err_count + 1`, saturating (R122). -/
def saturatingSucc (n : Count) (cfg : Config := Config.block) : Count := if n = errCountMax cfg then n else n + 1

/-- Taking an anomaly (R159): nothing is saved and control goes nowhere outside the FSM, so this state change is the
whole of it. R151: nothing. R152: back to `SeekStart`. R153, R122: one more error; the return to `SeekStart` is
RP.LAST's own (R87). R154: halted, with the cause. There is no return from one (R160): decoding goes on, and
`Halted` is left by `RESET` only. -/
def State.takeAnomaly (s : State) (a : Anomaly) (cfg : Config := Config.block) : State :=
  match a with
  | .startNotFound => s
  | .indexInvalid => { s with st := .seekStart }
  | .checksumMismatch => { s with errCount := saturatingSucc s.errCount cfg }
  | .ioFailure => { s with st := .halted, haltCause := .ioFailure }

/-! ### The commit and the end of a frame -/

/-- The four slot writes of R120, `slot[4m+k] <- sample k`. -/
def commitSlots (m : Memory) (idx : Byte) (p : Vector Byte 20) (cfg : Config := Config.block) : Memory :=
  (((m.write (angleOf idx 0) (sampleOf p 0 cfg)).write (angleOf idx 1) (sampleOf p 1 cfg)).write
    (angleOf idx 2) (sampleOf p 2 cfg)).write (angleOf idx 3) (sampleOf p 3 cfg)

/-- `COMMIT(idx, P)` (R120): four slots and the speed, nothing else. -/
def State.commit (s : State) (idx : Byte) (p : Vector Byte 20) (cfg : Config := Config.block) : State :=
  { s with slots := commitSlots s.slots idx p cfg, speedRaw := speedOf p }

/-- `DROP()` (R122): the anomaly ChecksumMismatch, nothing else. -/
def State.drop (s : State) (cfg : Config := Config.block) : State := s.takeAnomaly .checksumMismatch cfg

/-- `payload[19] <- b; pcount <- 0; st <- SeekStart`, what RP.LAST writes in both branches (R87, D28). -/
def State.endFrame (s : State) (b : Byte) : State :=
  { s with payload := s.payload.set 19 b, pcount := 0, st := .seekStart }

/-- The 20 payload bytes with the arriving byte as the last, `P` of R87. -/
def State.packet (s : State) (b : Byte) : Vector Byte 20 := s.payload.set 19 b

/-- The checksum verdict RP.LAST would reach with this last byte (R87, R105). -/
def State.verdict (s : State) (b : Byte) (cfg : Config := Config.block) : Bool := checksumOk s.idx (s.packet b) cfg

/-- RP.LAST in its COMMIT branch (R87, R120). An `idx` that is no index byte has no slots to write (log 8). -/
def State.lastCommit (s : State) (b : Byte) (cfg : Config := Config.block) : Result :=
  if IsIndex s.idx then .next ((s.commit s.idx (s.packet b) cfg).endFrame b) else .fault .indexOutOfRange

/-- RP.LAST in its DROP branch (R87, R122). -/
def State.lastDrop (s : State) (b : Byte) (cfg : Config := Config.block) : Result := .next ((s.drop cfg).endFrame b)

/-! ### Guards, contexts, sequences -/

/-- An operation runs in the states its table row names, and is no event in any other (R66; log 9). -/
def guarded (ok : Bool) (r : Result) : Result := if ok then r else .refused .notApplicable

/-- The context the next event is decoded in (R66). -/
def State.ctx (s : State) : Ctx := ⟨s.st, s.pcount, none⟩

/-- Run `f` in the state a result answers; a stop stays. -/
def andThen (r : Result) (f : State → Result) : Result :=
  match r with
  | .next s => f s
  | .fault e => .fault e
  | .refused e => .refused e

/-- `f` on each byte in order, each in the state the byte before it left (R54, R58). -/
def eachByte (f : Byte → State → Result) : List Byte → State → Result
  | [], s => .next s
  | b :: rest, s => andThen (f b s) (eachByte f rest)

/-- The event at the head of `pending` is taken; what the event before it returned is gone (logs 1, 2). -/
def State.taken (s : State) (rest : List Code) : State := { s with pending := rest, out := none }

/-- How `step` reports bits that are no event (log 13). -/
def refusalOf : DecodeError → Refusal
  | .noSuchKind => .noSuchEvent
  | .notAFrame => .notACodedEvent
  | .noSuchFormat => .notACodedEvent

end Sys2Proof.Machine
end

