-- ==== Sys2Proof/Machine/Flags.lean ====
section
/-! DEFINITION. The block has no condition codes (R35). What is flag-like: the `set` bit of a slot (R26), the
failure output `io_fail` (R30), and which anomaly an operation raises (R150), none of it stored but as R20 says. -/

namespace Sys2Proof.Machine

open Sys2Proof

/-- `slot[a].set` (R26). -/
def State.slotSet (s : State) (a : Nat) : Bool := (s.slots.read a).isSome

/-- The level output `io_fail` (R30): 1 exactly when `halt_cause = IoFailure`. -/
def State.ioFail (s : State) : Bool := decide (s.haltCause = .ioFailure)

/-- The anomaly an operation raises (R150, R158). `frame` and `sample` are several events, not one, and are given
none here. -/
def raises (i : Instr) (s : State) (cfg : Config := Config.block) : Option Anomaly :=
  match i with
  | .ssStart => none
  | .ssSkip _ => some .startNotFound
  | .riIndex _ => none
  | .riRestart => none
  | .riAbort _ => some .indexInvalid
  | .rpData _ => none
  | .rpLast b => if s.verdict b cfg then none else some .checksumMismatch
  | .commit _ => none
  | .drop _ => some .checksumMismatch
  | .haltIgnore _ => none
  | .rxfail => if s.st = .halted then none else some .ioFailure
  | .close => none
  | .reset => none
  | .snapshot => none
  | .speed => none
  | .errcnt => none
  | .frame _ => none
  | .sample _ => none

end Sys2Proof.Machine
end

