-- ==== Sys2Proof/Machine/Consumer.lean ====
section
/-! DEFINITION. The meanings of the consumer reads, 44_consumer_reads.md R130 to R136: each returns a value and
changes no item of R20. -/

namespace Sys2Proof.Machine

open Sys2Proof

/-- SNAPSHOT (R130). -/
def execSnapshot (s : State) : Result := .next { s with out := some (.snapshot (snapshotOf s.slots)) }

/-- SPEED (R133): the raw speed; `rpm` and `rpmBinary64` are what a reader makes of it. -/
def execSpeed (s : State) : Result := .next { s with out := some (.speed s.speedRaw) }

/-- ERRCNT (R134). -/
def execErrcnt (s : State) : Result := .next { s with out := some (.errCount s.errCount) }

end Sys2Proof.Machine
end

