-- ==== Sys2Proof/Machine/Lifecycle.lean ====
section
/-! DEFINITION. The meanings of the lifecycle operations, 45_lifecycle.md R140 to R145. -/

namespace Sys2Proof.Machine

open Sys2Proof

/-- RXFAIL (R142): IoFailure where the decoder runs, nothing in `Halted`. -/
def execRxfail (s : State) : Result :=
  .next (if s.st = .halted then s else s.takeAnomaly .ioFailure)

/-- CLOSE (R141): halted with the cause `Closed` where the decoder runs, nothing in `Halted`. -/
def execClose (s : State) : Result :=
  .next (if s.st = .halted then s else { s with st := .halted, haltCause := .closed })

/-- RESET (R140, R32) under given parameters: hunting, all slots unset, the scalars at their reset values. `idx`, `pcount` and `payload` are
unspecified: free values of this draw (log 4). -/
def execResetWith (cfg : Config) (s : State) : Result :=
  .next { s with
    st := .seekStart
    slots := Memory.cleared
    speedRaw := cfg.speedReset
    errCount := 0
    haltCause := .none
    idx := Config.freeIdx s.draws
    pcount := Config.freePcount s.draws
    payload := Config.freePayload s.draws
    draws := s.draws + 1 }

/-- RESET of this block. -/
def execReset (s : State) : Result := execResetWith Config.block s

end Sys2Proof.Machine
end

