-- ==== Sys2Proof/Machine/Framer.lean ====
section
/-! DEFINITION. The meanings of the byte operations, 40_framer_fsm.md R81 to R88. -/

namespace Sys2Proof.Machine

open Sys2Proof

/-- SS.START (R81): `st <- ReadIndex`. -/
def execSsStart (s : State) : Result :=
  guarded (decide (s.st = .seekStart)) (.next { s with st := .readIndex })

/-- SS.SKIP (R82): the byte is discarded; FramingDesync(StartNotFound), which changes nothing. -/
def execSsSkip (_b : Byte) (s : State) : Result :=
  guarded (decide (s.st = .seekStart)) (.next (s.takeAnomaly .startNotFound))

/-- RI.INDEX (R83): `idx <- b; pcount <- 0; st <- ReadPayload`. -/
def execRiIndex (b : Byte) (s : State) : Result :=
  guarded (decide (s.st = .readIndex)) (.next { s with idx := b, pcount := 0, st := .readPayload })

/-- RI.RESTART (R84): no change, no anomaly. -/
def execRiRestart (s : State) : Result :=
  guarded (decide (s.st = .readIndex)) (.next s)

/-- RI.ABORT (R85): FramingDesync(IndexInvalid), which is the return to `SeekStart`. -/
def execRiAbort (_b : Byte) (s : State) : Result :=
  guarded (decide (s.st = .readIndex)) (.next (s.takeAnomaly .indexInvalid))

/-- RP.DATA (R86): `payload[pcount] <- b; pcount <- pcount + 1`. -/
def execRpData (b : Byte) (s : State) : Result :=
  guarded (decide (s.st = .readPayload ∧ s.pcount.val ≤ 18))
    (.next { s with payload := s.payload.set s.pcount b, pcount := s.pcount + 1 })

/-- RP.LAST (R87) under given parameters: the verdict chooses COMMIT or DROP; the frame ends in both. -/
def execRpLastWith (cfg : Config) (b : Byte) (s : State) : Result :=
  guarded (decide (s.st = .readPayload ∧ s.pcount.val = 19))
    (if s.verdict b cfg then s.lastCommit b cfg else s.lastDrop b cfg)

/-- RP.LAST (R87) of this block. -/
def execRpLast (b : Byte) (s : State) : Result := execRpLastWith Config.block b s

/-- HALT.IGNORE (R88): nothing. -/
def execHaltIgnore (_b : Byte) (s : State) : Result :=
  guarded (decide (s.st = .halted)) (.next s)

end Sys2Proof.Machine
end

