-- ==== Sys2Proof/Machine/ScanWriter.lean ====
section
/-! DEFINITION. The meanings of COMMIT and DROP, 43_scan_writer.md R120 to R122, as the two outcomes of the RP.LAST
step (log 10). -/

namespace Sys2Proof.Machine

open Sys2Proof

/-- COMMIT (R120, R121) under given parameters: the RP.LAST step of a packet that validates. -/
def execCommitWith (cfg : Config) (b : Byte) (s : State) : Result :=
  guarded (decide (s.st = .readPayload ∧ s.pcount.val = 19 ∧ s.verdict b cfg = true)) (s.lastCommit b cfg)

/-- COMMIT of this block. -/
def execCommit (b : Byte) (s : State) : Result := execCommitWith Config.block b s

/-- DROP (R122) under given parameters: the RP.LAST step of a packet that does not validate. -/
def execDropWith (cfg : Config) (b : Byte) (s : State) : Result :=
  guarded (decide (s.st = .readPayload ∧ s.pcount.val = 19 ∧ s.verdict b cfg = false)) (s.lastDrop b cfg)

/-- DROP of this block. -/
def execDrop (b : Byte) (s : State) : Result := execDropWith Config.block b s

end Sys2Proof.Machine
end

