-- ==== Sys2Proof/Machine/Wire.lean ====
section
/-! DEFINITION. Delivering bytes, and the meanings of the two wire forms FRAME (R61, R76) and SAMPLE (R64) as the RX
events they expand to. -/

namespace Sys2Proof.Machine

open Sys2Proof

/-- One `RX b` event under given parameters: the operation of R66, performed completely (R80). -/
def deliverWith (cfg : Config) (b : Byte) (s : State) : Result :=
  match classify s.st s.pcount b with
  | .ssStart => execSsStart s
  | .ssSkip => execSsSkip b s
  | .riIndex => execRiIndex b s
  | .riRestart => execRiRestart s
  | .riAbort => execRiAbort b s
  | .rpData => execRpData b s
  | .rpLast => execRpLastWith cfg b s
  | .haltIgnore => execHaltIgnore b s

/-- One `RX b` event of this block. -/
def deliver (b : Byte) (s : State) : Result := deliverWith Config.block b s

/-- `BYTES n0 n1 ...` (R76) under given parameters. -/
def deliverAllWith (cfg : Config) (bs : List Byte) (s : State) : Result := eachByte (deliverWith cfg) bs s

/-- `BYTES n0 n1 ...` (R76): successive `RX` events. -/
def deliverAll (bs : List Byte) (s : State) : Result := eachByte deliver bs s

/-- FRAME (R76): its 22 bytes as 22 `RX` events, with no other event between them (log 11). -/
def execFrame (f : Frame) (s : State) : Result := deliverAll f.bytes s

/-- SAMPLE (R64): its four bytes as four `RX` events (log 12). -/
def execSample (g : SampleGroup) (s : State) : Result := deliverAll g.bytes s

/-- The checksum buffer of a frame, its first 20 bytes (R100). -/
def frameBuf (f : Frame) : List Byte := f.bytes.take 20

/-- The frame carries its own right checksum (R91.2, R105). -/
def frameValidates (f : Frame) : Bool := (cks (frameBuf f)).setWidth 16 == f.checksum

/-- `FRAME(i, s, g0, g1, g2, g3)` of R76: the checksum bytes are those of `cks`. -/
def mkFrame (i : Byte) (speed : Half) (g0 g1 g2 g3 : SampleGroup) : Frame :=
  let f : Frame := { index := i, speed := speed, g0 := g0, g1 := g1, g2 := g2, g3 := g3, checksum := 0#16 }
  { f with checksum := (cks (frameBuf f)).setWidth 16 }

/-- The sample a frame carries at position `k` (R60, R64). -/
def frameSample (f : Frame) (k : Fin 4) : Sample :=
  match k with
  | 0 => decodedGroup f.g0
  | 1 => decodedGroup f.g1
  | 2 => decodedGroup f.g2
  | 3 => decodedGroup f.g3

end Sys2Proof.Machine
end

