-- ==== Sys2Proof/Machine/Dispatch.lean ====
section
/-! DEFINITION. One arm per constructor of Instr. -/

namespace Sys2Proof.Machine

def exec (i : Instr) (s : State) : Host.Outcome State Fault Refusal :=
  match i with
  | .ssStart => Sys2Proof.Machine.execSsStart s
  | .ssSkip b => Sys2Proof.Machine.execSsSkip b s
  | .riIndex b => Sys2Proof.Machine.execRiIndex b s
  | .riRestart => Sys2Proof.Machine.execRiRestart s
  | .riAbort b => Sys2Proof.Machine.execRiAbort b s
  | .rpData b => Sys2Proof.Machine.execRpData b s
  | .rpLast b => Sys2Proof.Machine.execRpLast b s
  | .commit b => Sys2Proof.Machine.execCommit b s
  | .drop b => Sys2Proof.Machine.execDrop b s
  | .haltIgnore b => Sys2Proof.Machine.execHaltIgnore b s
  | .rxfail => Sys2Proof.Machine.execRxfail s
  | .close => Sys2Proof.Machine.execClose s
  | .reset => Sys2Proof.Machine.execReset s
  | .snapshot => Sys2Proof.Machine.execSnapshot s
  | .speed => Sys2Proof.Machine.execSpeed s
  | .errcnt => Sys2Proof.Machine.execErrcnt s
  | .frame f => Sys2Proof.Machine.execFrame f s
  | .sample g => Sys2Proof.Machine.execSample g s

end Sys2Proof.Machine
end

