-- ==== Sys2Proof/Machine/Step.lean ====
section
/-! DEFINITION. One step: the next event of the run, decoded in the context of the state and performed. -/

namespace Sys2Proof.Machine

open Sys2Proof

/-- One event is one atomic step (R6). Where no event is left nothing changes (R90, R186; log 1). -/
def step (s : State) : Host.Outcome State Fault Refusal :=
  match s.pending with
  | [] => .next s
  | c :: rest =>
    match decode s.ctx c with
    | .ok i => exec i (s.taken rest)
    | .error e => .refused (refusalOf e)

/-- The coded event of `nbits` bits `w` as the next one of the run; nothing else changes (log 1). -/
def State.withFetchWord (s : State) (nbits w : Nat) : State :=
  { s with pending := codeOfBits nbits w :: s.pending }

end Sys2Proof.Machine
end

