-- ==== Sys2Proof/Machine/Configured.lean ====
section
/-! DEFINITION. The machine that takes every decided parameter of R5 as an argument: `exec`, `step` and `State.reset`
for any `Config`, of which the block's own are the value `Config.block` (log 15). The two atomicities choose how an
operation is split into steps, which is Conforming.lean. -/

namespace Sys2Proof.Machine

open Sys2Proof

/-- `exec` under given parameters: `DIST_HI_MASK`, `ACC_WIDTH`, `ERRCNT_WIDTH` and `SPEED_RESET` reach the operations
that end a frame and `RESET`; no other operation depends on a parameter. -/
def execWith (cfg : Config) (i : Instr) (s : State) : Result :=
  match i with
  | .ssStart => execSsStart s
  | .ssSkip b => execSsSkip b s
  | .riIndex b => execRiIndex b s
  | .riRestart => execRiRestart s
  | .riAbort b => execRiAbort b s
  | .rpData b => execRpData b s
  | .rpLast b => execRpLastWith cfg b s
  | .commit b => execCommitWith cfg b s
  | .drop b => execDropWith cfg b s
  | .haltIgnore b => execHaltIgnore b s
  | .rxfail => execRxfail s
  | .close => execClose s
  | .reset => execResetWith cfg s
  | .snapshot => execSnapshot s
  | .speed => execSpeed s
  | .errcnt => execErrcnt s
  | .frame f => deliverAllWith cfg f.bytes s
  | .sample g => deliverAllWith cfg g.bytes s

/-- `step` under given parameters. -/
def stepWith (cfg : Config) (s : State) : Result :=
  match s.pending with
  | [] => .next s
  | c :: rest =>
    match decode s.ctx c with
    | .ok i => execWith cfg i (s.taken rest)
    | .error e => .refused (refusalOf e)

/-- `State.reset` under given parameters (R32). -/
def State.resetWith (cfg : Config) : State := { State.reset with speedRaw := cfg.speedReset }

end Sys2Proof.Machine
end

