-- ==== Sys2Proof/Machine/Conforming.lean ====
section
/-! DEFINITION. The conforming implementations of R55 and D16, D17: the same block with a snapshot or a commit made
of single-slot steps, in any order, interleaved with the other agents' steps. The machine of Step.lean is the value
`table`/`packet`; this one takes all parameters of R5 as an argument, and which step comes next as its event
(log 16). -/

namespace Sys2Proof.Machine

open Sys2Proof

/-- The parameters of the other admissible implementation: `SNAP_ATOMICITY` alone selects it (R55, C3). -/
def perSlot : Config := { snapAtomicity := .slot }

/-- A snapshot is 360 single-slot reads (R55, R132). -/
abbrev SplitsSnapshot (cfg : Config) : Prop := cfg.snapAtomicity = .slot

/-- A commit is five writes: under `SNAP_ATOMICITY = slot`, whatever `COMMIT_ATOMICITY` is (R55, C3), and under the
model's own value of `COMMIT_ATOMICITY` (log 24). -/
abbrev SplitsCommit (cfg : Config) : Prop := cfg.snapAtomicity = .slot ∨ cfg.commitAtomicity = .slot

/-- A snapshot a consumer has begun: the entries it has copied, newest first. State of the consumer (R36, R55). -/
structure SnapProgress where
  consumer : Nat
  got : List (Nat × (Half × Half))
  deriving DecidableEq, Repr

/-- A validated packet whose five writes are under way (R55). -/
structure CommitProgress where
  idx : Byte
  packet : Vector Byte 20
  slotsLeft : List (Fin 4)
  speedLeft : Bool
  deriving DecidableEq, Repr

/-- The block with the snapshots and the commit in progress. -/
structure Conforming where
  block : State
  snaps : List SnapProgress
  commit : Option CommitProgress
  deriving DecidableEq, Repr

/-- One atomic step of some agent. `event` is a coded event as a whole. -/
inductive MicroEvent where
  | event (c : Code)
  | snapBegin (consumer : Nat)
  | snapRead (consumer a : Nat)
  | snapEnd (consumer : Nat)
  | writeSlot (k : Fin 4)
  | writeSpeed
  deriving DecidableEq, Repr

/-- The commit of a validated packet, with nothing of it written yet. -/
def CommitProgress.start (idx : Byte) (p : Vector Byte 20) : CommitProgress := ⟨idx, p, [0, 1, 2, 3], true⟩

/-- What is left of a commit, `none` where all five writes are done. -/
def CommitProgress.left (c : CommitProgress) : Option CommitProgress :=
  if c.slotsLeft = [] ∧ c.speedLeft = false then none else some c

/-- The snapshot a consumer has in progress. -/
def findSnap (c : Nat) : List SnapProgress → Option SnapProgress
  | [] => none
  | p :: rest => if p.consumer = c then some p else findSnap c rest

/-- The snapshots in progress but a consumer's. -/
def dropSnap (c : Nat) (ps : List SnapProgress) : List SnapProgress := ps.filter fun p => decide (p.consumer ≠ c)

/-- The entry a snapshot holds for an angle. -/
def entryFor (a : Nat) : List (Nat × (Half × Half)) → Option (Half × Half)
  | [] => none
  | (k, v) :: rest => if k = a then some v else entryFor a rest

/-- The 360 entries of a finished snapshot in angle order, `none` while one is missing. -/
def finishedEntries (got : List (Nat × (Half × Half))) : Option (List (Half × Half)) :=
  (List.range Config.nSlots).mapM fun a => entryFor a got

/-- The state a result answers, where it answers one. -/
def nextState : Result → Option State
  | .next s => some s
  | .fault _ => none
  | .refused _ => none

/-- An operation performed as one step. Where a snapshot is split it is none; where a commit is, the last byte of a
validated packet ends the frame and begins the five writes (R55), and the wire forms are their bytes. -/
def wholeEvent (cfg : Config) (i : Instr) (s : Conforming) : Option Conforming :=
  match i with
  | .snapshot =>
    if SplitsSnapshot cfg then none
    else (nextState (execWith cfg .snapshot s.block)).map fun t => { s with block := t }
  | .rpLast b =>
    if SplitsCommit cfg ∧ s.block.verdict b cfg = true then
      if IsIndex s.block.idx then
        some { s with block := s.block.endFrame b,
                      commit := some (CommitProgress.start s.block.idx (s.block.packet b)) }
      else none
    else (nextState (execWith cfg (.rpLast b) s.block)).map fun t => { s with block := t }
  | .frame f =>
    if SplitsCommit cfg then none
    else (nextState (execWith cfg (.frame f) s.block)).map fun t => { s with block := t }
  | .sample g =>
    if SplitsCommit cfg then none
    else (nextState (execWith cfg (.sample g) s.block)).map fun t => { s with block := t }
  | i => (nextState (execWith cfg i s.block)).map fun t => { s with block := t }

/-- One step, `none` where it is not enabled. While a commit is under way the producer is inside its RP.LAST, and
only consumer steps interleave (R55). -/
def microStep (cfg : Config) (e : MicroEvent) (s : Conforming) : Option Conforming :=
  match e with
  | .event c =>
    match decode s.block.ctx c with
    | .error _ => none
    | .ok i => if s.commit.isSome ∧ i.role ≠ .consumer then none else wholeEvent cfg i s
  | .snapBegin c =>
    if SplitsSnapshot cfg ∧ (findSnap c s.snaps).isNone then
      some { s with snaps := ⟨c, []⟩ :: s.snaps }
    else none
  | .snapRead c a =>
    match findSnap c s.snaps with
    | none => none
    | some p =>
      if a < Config.nSlots ∧ (entryFor a p.got).isNone then
        some { s with snaps := ⟨c, (a, shown (s.block.slots.read a)) :: p.got⟩ :: dropSnap c s.snaps }
      else none
  | .snapEnd c =>
    match findSnap c s.snaps with
    | none => none
    | some p =>
      match finishedEntries p.got with
      | none => none
      | some es => some { s with block := { s.block with out := some (.snapshot es) }, snaps := dropSnap c s.snaps }
  | .writeSlot k =>
    match s.commit with
    | none => none
    | some c =>
      if k ∈ c.slotsLeft then
        some { s with
          block := { s.block with slots := s.block.slots.write (angleOf c.idx k) (sampleOf c.packet k cfg) }
          commit := CommitProgress.left { c with slotsLeft := c.slotsLeft.filter fun j => decide (j ≠ k) } }
      else none
  | .writeSpeed =>
    match s.commit with
    | none => none
    | some c =>
      if c.speedLeft then
        some { s with
          block := { s.block with speedRaw := speedOf c.packet }
          commit := CommitProgress.left { c with speedLeft := false } }
      else none

/-- A run of steps, `none` where one of them is not enabled. -/
def microRun (cfg : Config) : List MicroEvent → Conforming → Option Conforming
  | [], s => some s
  | e :: rest, s => (microStep cfg e s).bind (microRun cfg rest)

end Sys2Proof.Machine
end

