-- ==== Sys2Proof/Machine/Serial.lean ====
section
/-! DEFINITION. Coincident events (R157) and runs of a list of coded events (R75, R186). -/

namespace Sys2Proof.Machine

open Sys2Proof

/-- May `a` stand before `b` in the run when the two coincide (R157)? `CLOSE` and `RXFAIL` come before a coincident
`RX`, `RESET` comes last, every other pair may come in either order. -/
def mayPrecede (a b : EventKind) : Bool :=
  match a, b with
  | .reset, .reset => true
  | .reset, _ => false
  | .rx, .close => false
  | .rx, .rxfail => false
  | _, _ => true

/-- The kind of event an operation is (R66, R68); the wire forms are `RX` events (R76). -/
def eventKindOf : Instr → EventKind
  | .ssStart => .rx
  | .ssSkip _ => .rx
  | .riIndex _ => .rx
  | .riRestart => .rx
  | .riAbort _ => .rx
  | .rpData _ => .rx
  | .rpLast _ => .rx
  | .commit _ => .rx
  | .drop _ => .rx
  | .haltIgnore _ => .rx
  | .rxfail => .rxfail
  | .close => .close
  | .reset => .reset
  | .snapshot => .snapshot
  | .speed => .speed
  | .errcnt => .errcnt
  | .frame _ => .rx
  | .sample _ => .rx

/-- `n` steps, stopping at a fault or a refusal. -/
def steps : Nat → State → Result
  | 0, s => .next s
  | n + 1, s => andThen (step s) (steps n)

/-- The run of a list of coded events from a state: they are the pending events, one step each (R75 "applied in the
written order"). -/
def runOf (cs : List Code) (s : State) : Result := steps cs.length { s with pending := cs }

end Sys2Proof.Machine
end

