-- ==== Sys2Proof/Safety.lean ====
section
/-! DEFINITION. What claims are stated in: the invariant of R33, what a safe step is, the producer step of R92
written a second time as the spec writes it, and what the framer can see (R58). -/

namespace Sys2Proof.Machine

open Sys2Proof

/-- The invariant of every state reachable from reset (R33 items 1, 3, 5, 7), with the table's canonical form. R33.1's
`pcount <= 19` is the type of `pcount`. -/
structure State.Inv (s : State) : Prop where
  /-- R33.1. -/
  idxOk : s.st = .readPayload → IsIndex s.idx
  /-- Log 6: the table is in canonical form and lists addresses only. -/
  tableWf : s.slots.wf
  /-- R33.3. -/
  distOk : ∀ a v, s.slots.read a = some v → v.dist ≤ 0x3FFF#16
  /-- R33.5: the four slots of a group are set together. -/
  groups : ∀ m < 90, ∀ k < 4, s.slotSet (4 * m + k) = s.slotSet (4 * m)
  /-- R33.7. -/
  haltOk : s.haltCause = .none ↔ s.st ≠ .halted

/-- A result that is a next state. -/
abbrev answersNext (r : Result) : Prop := ∃ t, r = .next t

/-- The next event of the run, if there is one, is a coded event: bits that decode. -/
def State.headDecodes (s : State) : Prop :=
  ∀ c rest, s.pending = c :: rest → ∃ i, decode s.ctx c = .ok i

/-- The whole producer step as R92 writes it, apart from the operations' meanings. It is defined for an `idx` that is
an index byte, which R33.1 gives wherever a commit reads it. -/
def consolidatedRx (s : State) (b : Byte) : State :=
  match s.st with
  | .halted => s
  | .seekStart => if b = 0xFA#8 then { s with st := .readIndex } else s
  | .readIndex =>
    if 0xA0#8 ≤ b ∧ b ≤ 0xF9#8 then { s with idx := b, pcount := 0, st := .readPayload }
    else if b = 0xFA#8 then s
    else { s with st := .seekStart }
  | .readPayload =>
    if s.pcount.val ≤ 18 then { s with payload := s.payload.set s.pcount b, pcount := s.pcount + 1 }
    else
      let p := s.payload.set 19 b
      let buf := [0xFA#8, s.idx] ++ p.toList.take 18
      let tx := p[18].setWidth 16 ||| (p[19].setWidth 16 <<< 8)
      let t :=
        if (cks buf).setWidth 16 = tx then
          let m := s.idx.toNat - 0xA0
          let sampleAt (x0 x1 x2 x3 : Byte) : Sample :=
            ⟨x0.setWidth 16 ||| ((x1 &&& 0x3F#8).setWidth 16 <<< 8), x2.setWidth 16 ||| (x3.setWidth 16 <<< 8)⟩
          { s with
            speedRaw := p[0].setWidth 16 ||| (p[1].setWidth 16 <<< 8)
            slots := (((s.slots.write (4 * m) (sampleAt p[2] p[3] p[4] p[5])).write
              (4 * m + 1) (sampleAt p[6] p[7] p[8] p[9])).write
              (4 * m + 2) (sampleAt p[10] p[11] p[12] p[13])).write
              (4 * m + 3) (sampleAt p[14] p[15] p[16] p[17]) }
        else { s with errCount := if s.errCount = BitVec.ofNat 64 (2 ^ 64 - 1) then s.errCount else s.errCount + 1 }
      { t with payload := p, pcount := 0, st := .seekStart }

/-- Everything the interpretation of a byte may depend on (R58), with the draw counter of log 4. -/
structure FramerView where
  st : FsmState
  pcount : Fin 20
  idx : Byte
  payload : Vector Byte 20
  draws : Nat
  deriving DecidableEq, Repr

/-- The framer's part of a state (R58). -/
def State.framer (s : State) : FramerView := ⟨s.st, s.pcount, s.idx, s.payload, s.draws⟩

/-- The number of set slots (R126). -/
def State.setCount (s : State) : Nat := ((List.range Config.nSlots).filter fun a => s.slotSet a).length

end Sys2Proof.Machine
end

