-- ==== Sys2Proof/Certificates/Slice0/Obligations.lean ====
section
/-! DEFINITION. The statements for the provers. Each docstring names the rules of spec/ the statement rests on. -/

open Sys2Proof Sys2Proof.Machine

/-! ### Encoding -/

/-- R68, R81 to R88, R140 to R142, R130, R133, R134: event words written out bit by bit from the spec decode, in the
state their table row names, to the operation they stand for. R61, R64: so do a sample group and a frame, as coded
items (log 13) whose byte n stands at bits 8n+7..8n of the number: that numbering is the model's choice (log 14). -/
def Obligations.WordsWrittenFromTheSpecDecode : Prop :=
  decode ⟨.seekStart, 0, none⟩ (.event 0b00011111010#11) = .ok .ssStart ∧
  decode ⟨.seekStart, 0, none⟩ (.event 0b00010100000#11) = .ok (.ssSkip 0xA0#8) ∧
  decode ⟨.readIndex, 0, none⟩ (.event 0b00011111001#11) = .ok (.riIndex 0xF9#8) ∧
  decode ⟨.readIndex, 0, none⟩ (.event 0b00011111010#11) = .ok .riRestart ∧
  decode ⟨.readIndex, 0, none⟩ (.event 0b00011111011#11) = .ok (.riAbort 0xFB#8) ∧
  decode ⟨.readPayload, 18, none⟩ (.event 0b00011111010#11) = .ok (.rpData 0xFA#8) ∧
  decode ⟨.readPayload, 19, none⟩ (.event 0b00000010001#11) = .ok (.rpLast 0x11#8) ∧
  decode ⟨.readPayload, 19, some true⟩ (.event 0b00000010001#11) = .ok (.commit 0x11#8) ∧
  decode ⟨.readPayload, 19, some false⟩ (.event 0b00000010001#11) = .ok (.drop 0x11#8) ∧
  decode ⟨.halted, 0, none⟩ (.event 0b00001010101#11) = .ok (.haltIgnore 0x55#8) ∧
  decode ⟨.seekStart, 0, none⟩ (.event 0b00100000000#11) = .ok .rxfail ∧
  decode ⟨.seekStart, 0, none⟩ (.event 0b01000000000#11) = .ok .close ∧
  decode ⟨.halted, 0, none⟩ (.event 0b01100000000#11) = .ok .reset ∧
  decode ⟨.readPayload, 3, none⟩ (.event 0b10000000000#11) = .ok .snapshot ∧
  decode ⟨.seekStart, 0, none⟩ (.event 0b10100000000#11) = .ok .speed ∧
  decode ⟨.readIndex, 0, none⟩ (.event 0b11011111111#11) = .ok .errcnt ∧
  decode ⟨.seekStart, 0, none⟩ (.event 0b11100000000#11) = .error .noSuchKind ∧
  decode ⟨.seekStart, 0, none⟩ (.sample 0x00050234#32) = .ok (.sample ⟨0x34#8, 0x02#8, 0x05#8, 0x00#8⟩) ∧
  decode ⟨.seekStart, 0, none⟩ (.frame 0x11E60000000000000000000000000005023410_00A0FA#176) =
    .ok (.frame { index := 0xA0#8, speed := 0x1000#16, g0 := ⟨0x34#8, 0x02#8, 0x05#8, 0x00#8⟩,
                  g1 := ⟨0#8, 0#8, 0#8, 0#8⟩, g2 := ⟨0#8, 0#8, 0#8, 0#8⟩, g3 := ⟨0#8, 0#8, 0#8, 0#8⟩,
                  checksum := 0x11E6#16 })

/-- R66, R68, R61: decoding what `encode` writes gives the operation back, for every well-formed operation in every
context its table row applies in. -/
def Obligations.DecodeOfEncodeIsTheInstruction : Prop :=
  ∀ (i : Instr) (c : Ctx), i.wf = true → i.applies c = true → decode c (encode i) = .ok i

/-- R66, R67: whatever decodes is well formed and applies in its context, and an `RX` word, a sample or a frame has
no other encoding; so no two operations share an encoding in one context. The words of kinds 1 to 6 are the exception:
their data are ignored (R68, log 13), so each of those operations has 256 words. Of all words: those whose kind bits
are 7 decode in no context, and those of kinds 1 to 6 are their kind's operation in every context, whatever their
data. -/
def Obligations.DecodedIsWellFormedAppliesAndEncodesBack : Prop :=
  (∀ (c : Ctx) (w : Code) (i : Instr), decode c w = .ok i →
    i.wf = true ∧ i.applies c = true ∧
    ((∀ v, w = .event v → wordKind v = some .rx) → encode i = w)) ∧
  (∀ (c : Ctx) (w : BitVec 11),
    (wordKind w = none ↔ w.extractLsb' 8 3 = 7#3) ∧
    (w.extractLsb' 8 3 = 7#3 ↔ decode c (.event w) = .error .noSuchKind)) ∧
  (∀ (c : Ctx) (d : Byte),
    decode c (.event (1#3 ++ d)) = .ok .rxfail ∧ decode c (.event (2#3 ++ d)) = .ok .close ∧
    decode c (.event (3#3 ++ d)) = .ok .reset ∧ decode c (.event (4#3 ++ d)) = .ok .snapshot ∧
    decode c (.event (5#3 ++ d)) = .ok .speed ∧ decode c (.event (6#3 ++ d)) = .ok .errcnt)

/-- R66: the complete classification of a received byte, one clause per row of the table, and the table's next
state. -/
def Obligations.ByteClassificationTable : Prop :=
  (∀ (st : FsmState) (n : Fin 20) (b : Byte),
    (classify st n b = .ssStart ↔ st = .seekStart ∧ b = 0xFA#8) ∧
    (classify st n b = .ssSkip ↔ st = .seekStart ∧ b ≠ 0xFA#8) ∧
    (classify st n b = .riIndex ↔ st = .readIndex ∧ 0xA0#8 ≤ b ∧ b ≤ 0xF9#8) ∧
    (classify st n b = .riRestart ↔ st = .readIndex ∧ b = 0xFA#8) ∧
    (classify st n b = .riAbort ↔ st = .readIndex ∧ (b ≤ 0x9F#8 ∨ 0xFB#8 ≤ b)) ∧
    (classify st n b = .rpData ↔ st = .readPayload ∧ n.val ≤ 18) ∧
    (classify st n b = .rpLast ↔ st = .readPayload ∧ n.val = 19) ∧
    (classify st n b = .haltIgnore ↔ st = .halted)) ∧
  (∀ (s t : State) (b : Byte), deliver b s = .next t →
    t.st = match classify s.st s.pcount b with
      | .ssStart => .readIndex
      | .ssSkip => .seekStart
      | .riIndex => .readPayload
      | .riRestart => .readIndex
      | .riAbort => .seekStart
      | .rpData => .readPayload
      | .rpLast => .seekStart
      | .haltIgnore => .halted)

/-- R67: the byte classes, and the mask-and-match patterns whose unions they are. -/
def Obligations.ByteClassesAreTheirBitPatterns : Prop :=
  ∀ b : Byte,
    (byteClass b = .low ↔ b ≤ 0x9F#8) ∧
    (byteClass b = .index ↔ b &&& 0xE0#8 = 0xA0#8 ∨ b &&& 0xE0#8 = 0xC0#8 ∨ b &&& 0xF0#8 = 0xE0#8 ∨
      b &&& 0xF8#8 = 0xF0#8 ∨ b &&& 0xFE#8 = 0xF8#8) ∧
    (byteClass b = .start ↔ b = 0xFA#8) ∧
    (byteClass b = .high ↔ 0xFB#8 ≤ b) ∧
    (byteClass b ≠ .start ↔ b &&& 0x80#8 = 0x00#8 ∨ b &&& 0xC0#8 = 0x80#8 ∨ b &&& 0xE0#8 = 0xC0#8 ∨
      b &&& 0xF0#8 = 0xE0#8 ∨ b &&& 0xF8#8 = 0xF0#8 ∨ b &&& 0xFE#8 = 0xF8#8 ∨ b = 0xFB#8 ∨ b &&& 0xFC#8 = 0xFC#8) ∧
    (byteClass b = .low ∨ byteClass b = .high ↔
      b &&& 0x80#8 = 0x00#8 ∨ b &&& 0xE0#8 = 0x80#8 ∨ b = 0xFB#8 ∨ b &&& 0xFC#8 = 0xFC#8)

/-! ### The step -/

/-- R6, R7, R90: with an event pending that decodes, the step is `exec` of it in the state where the event is taken and
the last returned value is gone; bits that are no event are refused by name; with no event nothing changes. -/
def Obligations.StepPerformsTheDecodedEvent : Prop :=
  (∀ (s : State) (c : Code) (rest : List Code) (i : Instr), s.pending = c :: rest → decode s.ctx c = .ok i →
    step s = exec i { s with pending := rest, out := none }) ∧
  (∀ (s : State) (c : Code) (rest : List Code), s.pending = c :: rest → decode s.ctx c = .error .noSuchKind →
    step s = .refused .noSuchEvent) ∧
  (∀ s : State, s.pending = [] → step s = .next s)

/-- R92: the step on an `RX` word is the consolidated producer step, in every state whose `idx` is an index byte where
a payload is being read (R33.1). That the event leaves `pending` and that `out` is cleared are the model's own fields
(logs 1, 2). -/
def Obligations.RxStepIsTheConsolidatedStep : Prop :=
  ∀ (s : State) (b : Byte) (rest : List Code), (s.st = .readPayload → IsIndex s.idx) →
    s.pending = .event (rxWord b) :: rest →
    step s = .next { consolidatedRx s b with pending := rest, out := none }

/-- R76: a byte list, and so a FRAME or a SAMPLE, delivered as one operation ends in the state its bytes reach as
single events, one step each. That the wire forms are one operation is the model's choice (logs 11, 12). -/
def Obligations.WireFormsAreTheirByteEvents : Prop :=
  (∀ (bs : List Byte) (s : State), bs ≠ [] →
    runOf (bs.map fun b => .event (rxWord b)) s = deliverAll bs { s with pending := [], out := none }) ∧
  (∀ (f : Frame) (s : State),
    runOf (f.bytes.map fun b => .event (rxWord b)) s = exec (.frame f) { s with pending := [], out := none }) ∧
  (∀ (g : SampleGroup) (s : State),
    runOf (g.bytes.map fun b => .event (rxWord b)) s = exec (.sample g) { s with pending := [], out := none })

/-- R33 items 1, 3, 5, 7 and the table's canonical form hold right after reset. -/
def Obligations.ResetMeetsTheInvariant : Prop := State.reset.Inv

/-- R33 items 1, 3, 5, 7 and the table's canonical form: every step keeps them. -/
def Obligations.EveryStepKeepsTheInvariant : Prop :=
  ∀ s t : State, s.Inv → step s = .next t → t.Inv

/-- R73, R89: in a state that meets the invariant every event has its next state: no byte, no event of any agent can
fault or hang the block. -/
def Obligations.EveryEventHasANextState : Prop :=
  ∀ s : State, s.Inv → s.headDecodes → answersNext (step s)

/-- R73, R80: any bytes whatever can be delivered one after the other in a state that meets the invariant, and the
invariant holds after them; so a FRAME and a SAMPLE complete there whatever their bytes are. -/
def Obligations.AnyBytesCanBeDelivered : Prop :=
  ∀ (bs : List Byte) (s : State), s.Inv → ∃ t, deliverAll bs s = .next t ∧ t.Inv

/-- R66 and log 9 (the model's choice for the second half): a well-formed operation completes in every state of the
invariant that its table row applies in, and an operation is refused by name in every other state. Of an ill-formed
operation in a state its row names (log 23) nothing is said: it is no event. -/
def Obligations.OperationsCompleteExactlyWhereTheirRowApplies : Prop :=
  ∀ (i : Instr) (s : State),
    let verdict := match i with
      | .commit b => some (s.verdict b)
      | .drop b => some (s.verdict b)
      | _ => none
    (s.Inv → i.wf = true → i.applies ⟨s.st, s.pcount, verdict⟩ = true → answersNext (exec i s)) ∧
    (i.applies ⟨s.st, s.pcount, verdict⟩ = false → exec i s = .refused .notApplicable)

/-- Log 8 (the model's choice): a commit whose `idx` is no index byte faults by name. -/
def Obligations.CommitOutsideTheIndexRangeFaults : Prop :=
  ∀ (s : State) (b : Byte), s.st = .readPayload → s.pcount.val = 19 → s.verdict b = true → ¬ IsIndex s.idx →
    exec (.rpLast b) s = .fault .indexOutOfRange ∧ exec (.commit b) s = .fault .indexOutOfRange

/-! ### The byte operations -/

/-- R81: SS.START. -/
def Obligations.SsStartGoesToReadIndex : Prop :=
  ∀ s : State, s.st = .seekStart →
    decode s.ctx (.event (rxWord 0xFA#8)) = .ok .ssStart ∧
    exec .ssStart s = .next { s with st := .readIndex } ∧
    raises .ssStart s = none ∧
    (∀ (b : Byte) (t : State), deliver b s = .next t → t.st ≠ .seekStart → b = 0xFA#8)

/-- R82, R91 item 5: SS.SKIP, and a whole run of bytes that holds no start byte. -/
def Obligations.SsSkipDiscardsTheByte : Prop :=
  (∀ (s : State) (b : Byte), s.st = .seekStart → b ≠ 0xFA#8 →
    decode s.ctx (.event (rxWord b)) = .ok (.ssSkip b) ∧
    exec (.ssSkip b) s = .next s ∧
    raises (.ssSkip b) s = some .startNotFound) ∧
  (∀ (bs : List Byte) (s : State), s.st = .seekStart → 0xFA#8 ∉ bs → deliverAll bs s = .next s)

/-- R83: RI.INDEX. -/
def Obligations.RiIndexRecordsTheIndexByte : Prop :=
  (∀ (s : State) (b : Byte), s.st = .readIndex → 0xA0#8 ≤ b → b ≤ 0xF9#8 →
    decode s.ctx (.event (rxWord b)) = .ok (.riIndex b) ∧
    exec (.riIndex b) s = .next { s with idx := b, pcount := 0, st := .readPayload } ∧
    raises (.riIndex b) s = none) ∧
  rotationIndex 0xA0#8 = 0 ∧ rotationIndex 0xF9#8 = 89

/-- R84: RI.RESTART, and any number of start bytes in a row. -/
def Obligations.RiRestartStaysInReadIndex : Prop :=
  (∀ s : State, s.st = .readIndex →
    decode s.ctx (.event (rxWord 0xFA#8)) = .ok .riRestart ∧
    exec .riRestart s = .next s ∧
    raises .riRestart s = none) ∧
  (∀ (n : Nat) (s : State), s.st = .readIndex → deliverAll (List.replicate n 0xFA#8) s = .next s)

/-- R85: RI.ABORT. -/
def Obligations.RiAbortReturnsToSeekStart : Prop :=
  ∀ (s : State) (b : Byte), s.st = .readIndex → (b ≤ 0x9F#8 ∨ 0xFB#8 ≤ b) →
    decode s.ctx (.event (rxWord b)) = .ok (.riAbort b) ∧
    exec (.riAbort b) s = .next { s with st := .seekStart } ∧
    raises (.riAbort b) s = some .indexInvalid

/-- R86: RP.DATA. -/
def Obligations.RpDataStagesTheByte : Prop :=
  ∀ (s : State) (b : Byte), s.st = .readPayload → s.pcount.val ≤ 18 →
    decode s.ctx (.event (rxWord b)) = .ok (.rpData b) ∧
    raises (.rpData b) s = none ∧
    ∃ t, exec (.rpData b) s = .next t ∧
      t = { s with payload := t.payload, pcount := t.pcount } ∧
      t.pcount.val = s.pcount.val + 1 ∧
      t.payload[s.pcount.val] = b ∧
      ∀ j : Fin 20, j ≠ s.pcount → t.payload[j.val] = s.payload[j.val]

/-- R33 item 2, R86: while a payload is being read, up to 19 bytes in all are staged in arrival order and nothing else
changes. -/
def Obligations.PayloadBytesAreStagedInOrder : Prop :=
  ∀ (bs : List Byte) (s : State), s.st = .readPayload → s.pcount.val + bs.length ≤ 19 →
    ∃ t, deliverAll bs s = .next t ∧
      t = { s with payload := t.payload, pcount := t.pcount } ∧
      t.pcount.val = s.pcount.val + bs.length ∧
      (∀ j : Fin 20, j.val < s.pcount.val → t.payload[j.val] = s.payload[j.val]) ∧
      (∀ j : Fin 20, s.pcount.val ≤ j.val → j.val < s.pcount.val + bs.length →
        bs[j.val - s.pcount.val]? = some t.payload[j.val])

/-- R87: RP.LAST validates, commits or drops, and ends the frame in the same step; for an `idx` that is no index byte
a commit stops, see CommitOutsideTheIndexRangeFaults (log 8). That `exec` of COMMIT and of DROP is this whole step in
its branch is the model's choice (log 10). -/
def Obligations.RpLastValidatesAndEndsTheFrame : Prop :=
  ∀ (s : State) (b : Byte), s.st = .readPayload → s.pcount.val = 19 →
    let p := s.payload.set 19 b
    let ok := (cks ([0xFA#8, s.idx] ++ p.toList.take 18)).setWidth 16 = le16 p[18] p[19]
    decode s.ctx (.event (rxWord b)) = .ok (.rpLast b) ∧
    (ok → exec (.rpLast b) s = exec (.commit b) s ∧ raises (.rpLast b) s = none) ∧
    (ok → IsIndex s.idx →
      exec (.rpLast b) s = .next { s.commit s.idx p with payload := p, pcount := 0, st := .seekStart }) ∧
    (¬ ok → exec (.rpLast b) s = exec (.drop b) s ∧ raises (.rpLast b) s = some .checksumMismatch ∧
      exec (.rpLast b) s = .next { s.drop with payload := p, pcount := 0, st := .seekStart })

/-- R88: HALT.IGNORE. -/
def Obligations.HaltIgnoreChangesNothing : Prop :=
  ∀ (s : State) (b : Byte), s.st = .halted →
    decode s.ctx (.event (rxWord b)) = .ok (.haltIgnore b) ∧
    exec (.haltIgnore b) s = .next s ∧
    raises (.haltIgnore b) s = none

/-! ### Commit and drop -/

/-- R120, R87: the commit of a validated packet writes its four slots whole and the speed; every other slot, the error
count and the halt cause stay. `payload[19]`, `pcount` and `st` are RP.LAST's own writes (R87), which `exec` of COMMIT
performs as well: that is the model's choice (log 10). Nothing else changes. -/
def Obligations.CommitWritesFourSlotsAndTheSpeed : Prop :=
  ∀ (s : State) (b : Byte), s.st = .readPayload → s.pcount.val = 19 → s.verdict b = true → IsIndex s.idx →
    let p := s.payload.set 19 b
    let m := s.idx.toNat - 0xA0
    raises (.commit b) s = none ∧
    ∃ t, exec (.commit b) s = .next t ∧
      t = { s with slots := t.slots, speedRaw := t.speedRaw, payload := p, pcount := 0, st := .seekStart } ∧
      t.speedRaw = le16 p[0] p[1] ∧
      (∀ k : Fin 4, t.slots.read (4 * m + k.val) =
        some { dist := le16 p[2 + 4 * k.val] (p[3 + 4 * k.val] &&& 0x3F#8),
               qual := le16 p[4 + 4 * k.val] p[5 + 4 * k.val] }) ∧
      (∀ a, a / 4 ≠ m → t.slots.read a = s.slots.read a)

/-- R122, R87: the drop of a packet that does not validate counts one error, saturating, and publishes nothing.
`payload[19]`, `pcount` and `st` are RP.LAST's own writes (R87), which `exec` of DROP performs as well: that is the
model's choice (log 10). Nothing else changes. -/
def Obligations.DropCountsOneErrorAndPublishesNothing : Prop :=
  ∀ (s : State) (b : Byte), s.st = .readPayload → s.pcount.val = 19 → s.verdict b = false →
    raises (.drop b) s = some .checksumMismatch ∧
    exec (.drop b) s = .next { s with
      errCount := if s.errCount.toNat = 2 ^ 64 - 1 then s.errCount else s.errCount + 1
      payload := s.payload.set 19 b, pcount := 0, st := .seekStart }

/-- R91 item 2, R76, R120: a frame with an index byte and its own right checksum, received while hunting, is committed:
its four samples stand in its own four slots, its speed in the speed register, everything else as it was. The frame
made with the computed checksum (R76) is such a frame. FRAME as one operation is the model's choice (log 11). -/
def Obligations.AValidFrameIsCommitted : Prop :=
  (∀ (i : Byte) (v : Half) (g0 g1 g2 g3 : SampleGroup), frameValidates (mkFrame i v g0 g1 g2 g3) = true) ∧
  ∀ (s : State) (f : Frame), (s.st = .seekStart ∨ s.st = .readIndex) → IsIndex f.index → frameValidates f = true →
    ∃ t, exec (.frame f) s = .next t ∧
      t = { s with st := .seekStart, pcount := 0, idx := f.index, payload := t.payload, slots := t.slots,
                   speedRaw := f.speed } ∧
      (∀ k : Fin 4, t.slots.read (angleOf f.index k) = some (frameSample f k)) ∧
      (∀ a, a / 4 ≠ rotationIndex f.index → t.slots.read a = s.slots.read a)

/-- R122, R123: a frame with an index byte and a wrong checksum, received while hunting, is dropped whole: one error,
table and speed as they were. FRAME as one operation is the model's choice (log 11). -/
def Obligations.AFrameThatDoesNotValidateIsDropped : Prop :=
  ∀ (s : State) (f : Frame), (s.st = .seekStart ∨ s.st = .readIndex) → IsIndex f.index → frameValidates f = false →
    ∃ t, exec (.frame f) s = .next t ∧
      t = { s with st := .seekStart, pcount := 0, idx := f.index, payload := t.payload,
                   errCount := saturatingSucc s.errCount }

/-- R64, R24: the four bytes of a sample group, delivered where group `k` of a frame begins, are staged as that group
and decode to its distance and quality; nothing but the staging registers changes. SAMPLE as one operation is the
model's choice (log 12). -/
def Obligations.SampleBytesAreStagedAsTheirGroup : Prop :=
  ∀ (s : State) (g : SampleGroup) (k : Fin 4), s.st = .readPayload → s.pcount.val = 2 + 4 * k.val →
    ∃ t, exec (.sample g) s = .next t ∧
      t = { s with payload := t.payload, pcount := t.pcount } ∧
      t.pcount.val = 6 + 4 * k.val ∧
      groupOf t.payload k = g ∧
      sampleOf t.payload k = { dist := le16 g.x0 (g.x1 &&& 0x3F#8), qual := le16 g.x2 g.x3 } ∧
      (∀ j : Fin 20, (j.val < 2 + 4 * k.val ∨ 6 + 4 * k.val ≤ j.val) → t.payload[j.val] = s.payload[j.val])

/-- R91 item 1: from any running state of the invariant the block is hunting again within 21 bytes, unless it awaits
the index byte and is handed another start byte. -/
def Obligations.HuntingResumesWithin21Bytes : Prop :=
  ∀ (s : State) (bs : List Byte), s.Inv → s.st ≠ .halted → bs.length = 21 →
    (s.st = .readIndex → bs.head? ≠ some 0xFA#8) →
    ∃ n t, n ≤ 21 ∧ deliverAll (bs.take n) s = .next t ∧ t.st = .seekStart

/-- R91 item 3, R177, R74: when a payload is being read, the next bytes are taken as payload whatever they are, up to
the twentieth; a frame that begins there is not looked at again. -/
def Obligations.PayloadBytesAreNeverFraming : Prop :=
  ∀ (s : State) (bs : List Byte), s.Inv → s.st = .readPayload → s.pcount.val + bs.length ≤ 20 →
    ∃ t, deliverAll bs s = .next t ∧ t.idx = s.idx ∧
      (s.pcount.val + bs.length < 20 → t.st = .readPayload ∧ t.pcount.val = s.pcount.val + bs.length) ∧
      (s.pcount.val + bs.length = 20 → t.st = .seekStart)

/-- R125, R52: of two validated frames the later one wins the speed, and the slots where both have the same index. -/
def Obligations.TheLaterFrameWins : Prop :=
  ∀ (s : State) (f g : Frame), s.st = .seekStart → IsIndex f.index → IsIndex g.index →
    frameValidates f = true → frameValidates g = true →
    ∃ t, andThen (exec (.frame f) s) (exec (.frame g)) = .next t ∧ t.speedRaw = g.speed ∧
      (∀ k : Fin 4, t.slots.read (angleOf g.index k) = some (frameSample g k)) ∧
      (f.index ≠ g.index → ∀ k : Fin 4, t.slots.read (angleOf f.index k) = some (frameSample f k)) ∧
      (∀ a, a / 4 ≠ rotationIndex f.index → a / 4 ≠ rotationIndex g.index → t.slots.read a = s.slots.read a)

/-- R126: from an empty table, committing frames with n distinct index bytes in any order sets exactly 4n slots, those
of the indices; 90 of them set all 360. -/
def Obligations.FramesOfDistinctIndicesCoverTheirAngles : Prop :=
  ∀ (fs : List Frame) (s : State), s.st = .seekStart → (∀ a, s.slots.read a = none) →
    (∀ f ∈ fs, IsIndex f.index ∧ frameValidates f = true) → (fs.map fun f => f.index).Nodup →
    ∃ t, deliverAll (fs.flatMap fun f => f.bytes) s = .next t ∧
      (∀ f ∈ fs, ∀ k : Fin 4, t.slots.read (angleOf f.index k) = some (frameSample f k)) ∧
      t.setCount = 4 * fs.length ∧
      (fs.length = 90 → ∀ a < 360, t.slotSet a = true)

/-! ### Checksum and extraction -/

/-- R101, R102: the ten words of a 20-byte buffer are its byte pairs in order, the first byte of each the low one; in
frame terms word 0 is the start byte below `idx`, and the nine others are the first 18 payload bytes. The fold over ten
words is one exact integer expression. -/
def Obligations.FoldIsTheWeightedSum : Prop :=
  (∀ buf : Vector Byte 20,
    (wordsOf buf.toList).length = 10 ∧
    ∀ i : Fin 10, ∃ w, (wordsOf buf.toList)[i.val]? = some w ∧
      w.toNat = buf[2 * i.val].toNat + 256 * buf[2 * i.val + 1].toNat) ∧
  (∀ (idx : Byte) (p : Vector Byte 20),
    (checksumBuf idx p).length = 20 ∧
    (wordsOf (checksumBuf idx p))[0]? = some (idx ++ 0xFA#8) ∧
    ∀ i : Fin 9, (wordsOf (checksumBuf idx p))[i.val + 1]? = some (p[2 * i.val + 1] ++ p[2 * i.val])) ∧
  (∀ w0 w1 w2 w3 w4 w5 w6 w7 w8 w9 : Half,
    (foldWords 32 [w0, w1, w2, w3, w4, w5, w6, w7, w8, w9]).toNat =
      w0.toNat * 512 + w1.toNat * 256 + w2.toNat * 128 + w3.toNat * 64 + w4.toNat * 32 + w5.toNat * 16 +
        w6.toNat * 8 + w7.toNat * 4 + w8.toNat * 2 + w9.toNat)

/-- R103: over ten words the fold stays below 2^26, so every accumulator of 26 bits or more gives the same value, and
every such value of the parameter `ACC_WIDTH` the same verdict. -/
def Obligations.AccumulatorWidthDoesNotMatter : Prop :=
  (∀ (width : Nat) (ws : List Half), 26 ≤ width → ws.length = 10 →
    (foldWords width ws).toNat ≤ 67042305 ∧ (foldWords width ws).toNat = (foldWords 32 ws).toNat) ∧
  (∀ (cfg : Config) (s : State) (b : Byte), 26 ≤ cfg.accWidth → s.verdict b cfg = s.verdict b)

/-- R104: the checksum is the accumulator's high part folded into its low 15 bits once, mod 2^15; the sum fits in 16
bits. `cks` is R101, R102 and this applied in order. -/
def Obligations.FinalFoldAddsTheHighPartOnce : Prop :=
  (∀ ws : List Half, ws.length = 10 →
    let acc := (foldWords 32 ws).toNat
    acc / 2 ^ 15 ≤ 0x7FF ∧ acc % 2 ^ 15 + acc / 2 ^ 15 ≤ 0x87FE ∧
    (finalFold (foldWords 32 ws)).toNat = (acc % 2 ^ 15 + acc / 2 ^ 15) % 2 ^ 15) ∧
  (∀ buf : List Byte, cks buf = finalFold (foldWords 32 (wordsOf buf)))

/-- R106 item 1: flipping one bit of one checksum word always changes the checksum. -/
def Obligations.EverySingleBitErrorChangesTheChecksum : Prop :=
  ∀ (ws : List Half) (i : Fin 10) (j : Fin 16), ws.length = 10 →
    finalFold (foldWords 32 (ws.modify i.val fun w => w ^^^ (1#16 <<< j.val))) ≠ finalFold (foldWords 32 ws)

/-- R106 item 2 (vector V-F9): some double errors are not detected: two frames that differ in bit 0 of the speed and
bit 2 of the first quality byte, and in no other bit, both validate and carry different samples. -/
def Obligations.SomeDoubleErrorsAreNotDetected : Prop :=
  ∃ f g : Frame,
    g = { f with speed := f.speed ^^^ 0x0001#16, g0 := { f.g0 with x2 := f.g0.x2 ^^^ 0x04#8 } } ∧
    frameValidates f = true ∧ frameValidates g = true ∧ frameSample f 0 ≠ frameSample g 0

/-- R72, R105: a transmitted checksum with bit 15 set never validates. -/
def Obligations.ChecksumBit15NeverValidates : Prop :=
  (∀ (idx : Byte) (p : Vector Byte 20), p[19].getLsbD 7 = true → checksumOk idx p = false) ∧
  (∀ f : Frame, f.checksum.getLsbD 15 = true → frameValidates f = false)

/-- R111, R113, R114, R70: the distance is `{x1[5:0], x0}`, at most 0x3FFF, whatever the two reserved bits
are; speed and quality are little-endian byte pairs in full. -/
def Obligations.FieldsAreAssembledFromTheirBytes : Prop :=
  (∀ x0 x1 : Byte,
    (distance x0 x1).toNat = x0.toNat + 256 * (x1.toNat % 64) ∧
    distance x0 x1 = (x1.extractLsb' 0 6 ++ x0).setWidth 16 ∧
    distance x0 x1 ≤ 0x3FFF#16 ∧
    (∀ r : BitVec 2, distance x0 (r ++ x1.extractLsb' 0 6) = distance x0 x1)) ∧
  (∀ x2 x3 : Byte, (quality x2 x3).toNat = x2.toNat + 256 * x3.toNat ∧ quality x2 x3 = x3 ++ x2) ∧
  (∀ p : Vector Byte 20, (speedOf p).toNat = p[0].toNat + 256 * p[1].toNat ∧ speedOf p = p[1] ++ p[0]) ∧
  (∀ (p : Vector Byte 20) (k : Fin 4), sampleOf p k =
    { dist := distance p[2 + 4 * k.val] p[3 + 4 * k.val], qual := quality p[4 + 4 * k.val] p[5 + 4 * k.val] })

/-- R115, R41, R45: the angles of the 90 index bytes partition 0..359, four consecutive ones each. -/
def Obligations.AnglesPartitionTheTable : Prop :=
  (∀ (idx : Byte) (k : Fin 4), IsIndex idx →
    angleOf idx k = (idx.toNat - 0xA0) * 4 + k.val ∧ angleOf idx k < 360 ∧ angleOf idx k / 4 = rotationIndex idx ∧ angleOf idx k % 4 = k.val ∧
    angleOf idx k % 360 = angleOf idx k) ∧
  (∀ a < 360, ∃ idx k, IsIndex idx ∧ angleOf idx k = a ∧
    ∀ idx' k', IsIndex idx' → angleOf idx' k' = a → idx' = idx ∧ k' = k)

/-- R112: the binary64 word of the speed has exactly the value `speed_raw / 64`. -/
def Obligations.RpmBinary64IsExact : Prop :=
  ∀ raw : Half, binary64Value (rpmBinary64 raw) = rpm raw

/-! ### Consumer reads and lifecycle -/

/-- R130, R131: SNAPSHOT returns 360 pairs in angle order, `(0, 0)` for an unset slot, and changes nothing. -/
def Obligations.SnapshotReturnsAll360Slots : Prop :=
  ∀ s : State, raises .snapshot s = none ∧ ∃ es : List (Half × Half),
    exec .snapshot s = .next { s with out := some (.snapshot es) } ∧ es.length = 360 ∧
    ∀ a < 360, es[a]? = some (match s.slots.read a with
      | none => (0#16, 0#16)
      | some v => (v.dist, v.qual))

/-- R133, R112: SPEED returns the raw speed, of which RPM is a 64th, 0 right after reset, and changes nothing. -/
def Obligations.SpeedReturnsTheRawSpeed : Prop :=
  (∀ s : State, exec .speed s = .next { s with out := some (.speed s.speedRaw) } ∧ raises .speed s = none ∧
    rpm s.speedRaw = (s.speedRaw.toNat : Rat) / 64) ∧
  State.reset.speedRaw = 0#16

/-- R134: ERRCNT returns the error count and does not clear it. -/
def Obligations.ErrcntReturnsTheErrorCount : Prop :=
  ∀ s : State, exec .errcnt s = .next { s with out := some (.errCount s.errCount) } ∧ raises .errcnt s = none

/-- R49, R50, R162: a consumer's operation writes nothing but what it returns, and done twice returns the same. -/
def Obligations.ConsumersWriteNothing : Prop :=
  ∀ (i : Instr) (s : State), i.role = .consumer →
    ∃ t, exec i s = .next t ∧ t = { s with out := t.out } ∧ exec i t = .next t

/-- R140, R32: RESET from any state leaves every item at the value the spec gives; of `idx`, `pcount` and `payload`,
which the spec leaves unspecified, nothing is said (log 4). No other operation leaves `Halted`. -/
def Obligations.ResetEventClearsTheBlock : Prop :=
  (∀ s : State, ∃ t, exec .reset s = .next t ∧
    t.st = .seekStart ∧ (∀ a, t.slots.read a = none ∧ t.slotSet a = false) ∧ t.speedRaw = 0#16 ∧ t.errCount = 0#64 ∧
    t.haltCause = .none ∧ t.ioFail = false ∧ t.out = s.out ∧ t.pending = s.pending) ∧
  (∀ (i : Instr) (s t : State), exec i s = .next t → s.st = .halted → t.st ≠ .halted → i = .reset)

/-- R32, R170, R171: the values the spec gives for the block right after reset. -/
def Obligations.ResetStateHasTheSpecValues : Prop :=
  State.reset.st = .seekStart ∧ (∀ a, State.reset.slots.read a = none) ∧ State.reset.speedRaw = 0#16 ∧
  State.reset.errCount = 0#64 ∧ State.reset.haltCause = .none ∧ State.reset.ioFail = false

/-- R141: CLOSE. -/
def Obligations.CloseHaltsARunningBlock : Prop :=
  ∀ s : State,
    (s.st ≠ .halted → exec .close s = .next { s with st := .halted, haltCause := .closed } ∧
      State.ioFail { s with st := .halted, haltCause := .closed } = false) ∧
    (s.st = .halted → exec .close s = .next s) ∧ raises .close s = none

/-- R142, R154, R30: RXFAIL. -/
def Obligations.RxfailHaltsWithIoFailure : Prop :=
  ∀ s : State,
    (s.st ≠ .halted → raises .rxfail s = some .ioFailure ∧
      exec .rxfail s = .next { s with st := .halted, haltCause := .ioFailure } ∧
      State.ioFail { s with st := .halted, haltCause := .ioFailure } = true) ∧
    (s.st = .halted → raises .rxfail s = none ∧ exec .rxfail s = .next s)

/-- R143, R145, R33 item 8: in `Halted` every operation but RESET leaves the whole block as it is; only what a read
returns is new. A FRAME and a SAMPLE are ignored there whole. -/
def Obligations.NothingChangesInHalted : Prop :=
  (∀ (i : Instr) (s t : State), s.st = .halted → i ≠ .reset → exec i s = .next t → t = { s with out := t.out }) ∧
  (∀ (f : Frame) (g : SampleGroup) (s : State), s.st = .halted →
    exec (.frame f) s = .next s ∧ exec (.sample g) s = .next s)

/-! ### Whole-machine rules -/

/-- R34: the writes of the access table, column by column: an operation not listed for an item never changes it, nor
do SS.SKIP and RI.RESTART change `st`, which they are listed for and write back as it was (R82, R84). FRAME and SAMPLE
are RX events (logs 11, 12), COMMIT and DROP the RP.LAST step (log 10); `pending` and `out` are the model's own. -/
def Obligations.AccessTableOfWrites : Prop :=
  ∀ (i : Instr) (s t : State), exec i s = .next t →
    (t.pending = s.pending) ∧
    (i.role ≠ .consumer → t.out = s.out) ∧
    (i.role = .consumer → t.st = s.st ∧ t.pcount = s.pcount ∧ t.idx = s.idx ∧ t.payload = s.payload) ∧
    (i ≠ .ssStart → (∀ b, i ≠ .riIndex b) → (∀ b, i ≠ .riAbort b) → (∀ b, i ≠ .rpLast b) → (∀ b, i ≠ .commit b) →
      (∀ b, i ≠ .drop b) → (∀ f, i ≠ .frame f) → (∀ g, i ≠ .sample g) → i ≠ .rxfail → i ≠ .close → i ≠ .reset →
      t.st = s.st) ∧
    ((∀ b, i ≠ .riIndex b) → (∀ b, i ≠ .rpData b) → (∀ b, i ≠ .rpLast b) → (∀ b, i ≠ .commit b) →
      (∀ b, i ≠ .drop b) → (∀ f, i ≠ .frame f) → (∀ g, i ≠ .sample g) → i ≠ .reset → t.pcount = s.pcount) ∧
    ((∀ b, i ≠ .riIndex b) → (∀ f, i ≠ .frame f) → (∀ g, i ≠ .sample g) → i ≠ .reset → t.idx = s.idx) ∧
    ((∀ b, i ≠ .rpData b) → (∀ b, i ≠ .rpLast b) → (∀ b, i ≠ .commit b) → (∀ b, i ≠ .drop b) →
      (∀ f, i ≠ .frame f) → (∀ g, i ≠ .sample g) → i ≠ .reset → t.payload = s.payload) ∧
    ((∀ b, i ≠ .rpLast b) → (∀ b, i ≠ .commit b) → (∀ f, i ≠ .frame f) → (∀ g, i ≠ .sample g) → i ≠ .reset →
      t.slots = s.slots ∧ t.speedRaw = s.speedRaw) ∧
    ((∀ b, i ≠ .rpLast b) → (∀ b, i ≠ .drop b) → (∀ f, i ≠ .frame f) → (∀ g, i ≠ .sample g) → i ≠ .reset →
      t.errCount = s.errCount) ∧
    (i ≠ .rxfail → i ≠ .close → i ≠ .reset → t.haltCause = s.haltCause)

/-- R26, R124, R28, R33 items 4 and 6: only RESET unsets a slot or lowers the error count. -/
def Obligations.OnlyResetUnsetsOrLowers : Prop :=
  ∀ (i : Instr) (s t : State), exec i s = .next t → i ≠ .reset →
    (∀ a, s.slotSet a = true → t.slotSet a = true) ∧ s.errCount ≤ t.errCount

/-- R58: what an event does to the framer depends on the framer and the event only: not on the table, the speed, the
error count or any consumer. (`draws` is log 4's counter, which a RESET reads.) -/
def Obligations.FramerDependsOnFramerOnly : Prop :=
  ∀ (i : Instr) (s t s' t' : State), s.framer = t.framer → exec i s = .next s' → exec i t = .next t' →
    s'.framer = t'.framer

/-- R150, R158, R159: an operation that raises an anomaly has that anomaly's effect and no other, apart from the writes
of RP.LAST itself where the checksum does not match (R87; log 10 for DROP). -/
def Obligations.AnomaliesHaveTheirOwnEffectOnly : Prop :=
  ∀ (i : Instr) (s t : State), exec i s = .next t →
    (raises i s = some .startNotFound → t = s) ∧
    (raises i s = some .indexInvalid → t = { s with st := .seekStart }) ∧
    (raises i s = some .checksumMismatch → ∃ b, (i = .rpLast b ∨ i = .drop b) ∧
      t = { s with errCount := saturatingSucc s.errCount, payload := s.payload.set 19 b, pcount := 0,
                   st := .seekStart }) ∧
    (raises i s = some .ioFailure → t = { s with st := .halted, haltCause := .ioFailure })

/-- R30, R156: `io_fail` rises by RXFAIL only and falls by RESET only, from every state in which the halt cause is
`None` exactly outside `Halted` (R33.7). -/
def Obligations.IoFailRisesByRxfailFallsByReset : Prop :=
  ∀ (i : Instr) (s t : State), (s.haltCause = .none ↔ s.st ≠ .halted) → exec i s = .next t →
    (s.ioFail = false → t.ioFail = true → i = .rxfail) ∧ (s.ioFail = true → t.ioFail = false → i = .reset)

/-- R157, one clause per row: a byte and a coincident consumer read come in either order and leave the same block;
CLOSE or RXFAIL comes before a coincident byte, which then changes nothing; of CLOSE and RXFAIL, in either order, the
first sets the cause; RESET comes last and its values stand; two reads come in either order and do not affect each
other. The default, either order, for the pairs without a row: CLOSE or RXFAIL and a consumer read leave the same state
and return the same value in both orders. -/
def Obligations.CoincidentEventsInTheirAllowedOrders : Prop :=
  (∀ (b : Byte) (i : Instr) (s t t' : State), i.role = .consumer →
    mayPrecede .rx (eventKindOf i) = true ∧ mayPrecede (eventKindOf i) .rx = true ∧
    (andThen (deliver b s) (exec i) = .next t → andThen (exec i s) (deliver b) = .next t' →
      { t with out := none } = { t' with out := none })) ∧
  (∀ (b : Byte) (i : Instr) (s : State), (i = .close ∨ i = .rxfail) →
    mayPrecede .rx (eventKindOf i) = false ∧ mayPrecede (eventKindOf i) .rx = true ∧
    andThen (exec i s) (deliver b) = exec i s) ∧
  (∀ s : State, s.st ≠ .halted →
    mayPrecede .close .rxfail = true ∧ mayPrecede .rxfail .close = true ∧
    andThen (exec .close s) (exec .rxfail) = .next { s with st := .halted, haltCause := .closed } ∧
    andThen (exec .rxfail s) (exec .close) = .next { s with st := .halted, haltCause := .ioFailure }) ∧
  (∀ (i : Instr) (s t : State), i ≠ .reset →
    mayPrecede .reset (eventKindOf i) = false ∧ mayPrecede (eventKindOf i) .reset = true ∧
    (andThen (exec i s) (exec .reset) = .next t →
      t.st = .seekStart ∧ t.slots = Memory.cleared ∧ t.speedRaw = 0#16 ∧ t.errCount = 0#64 ∧ t.haltCause = .none)) ∧
  (∀ (i j : Instr) (s : State), i.role = .consumer → j.role = .consumer →
    mayPrecede (eventKindOf i) (eventKindOf j) = true ∧
    ∃ t, exec j s = .next t ∧ andThen (exec i s) (exec j) = .next t) ∧
  (∀ (i j : Instr) (s : State), (i = .close ∨ i = .rxfail) → j.role = .consumer →
    mayPrecede (eventKindOf i) (eventKindOf j) = true ∧ mayPrecede (eventKindOf j) (eventKindOf i) = true ∧
    ∃ t u, andThen (exec i s) (exec j) = .next t ∧ andThen (exec j s) (exec i) = .next t ∧
      exec j s = .next u ∧ t.out = u.out)

/-! ### The per-slot implementation (R55) -/

/-- R5, R55, R121 (the machines' form is the model's, logs 15 and 16). Under `packet` and `table` the conforming machine
performs each operation in one step, as the block with the same other parameters does, and no single-slot step is
enabled. Three more parameters are honoured: `DIST_HI_MASK` in what a commit publishes, `ERRCNT_WIDTH` in where the
count stays, `SPEED_RESET` in what a reset leaves. `ACC_WIDTH` is AccumulatorWidthDoesNotMatter's; of
`HAS_DESYNC_COUNTER` and `HAS_SLOT_STAMP`, which nothing reads (log 15), and of the other values of the two atomicities
(log 24) nothing is said here. With the spec's values the machine is the block. -/
def Obligations.TablePacketParametersGiveTheBlock : Prop :=
  (∀ (cfg : Config) (c : Code) (i : Instr) (s : State), cfg.commitAtomicity = .packet → cfg.snapAtomicity = .table →
    decode s.ctx c = .ok i →
    microStep cfg (.event c) ⟨s, [], none⟩ = (nextState (execWith cfg i s)).map fun t => ⟨t, [], none⟩) ∧
  (∀ (cfg : Config) (e : MicroEvent) (s : State), cfg.snapAtomicity = .table → (∀ c, e ≠ .event c) →
    microStep cfg e ⟨s, [], none⟩ = none) ∧
  (∀ (cfg : Config) (s : State) (b : Byte), s.st = .readPayload → s.pcount.val = 19 → s.verdict b cfg = true →
    IsIndex s.idx → ∃ t, execWith cfg (.rpLast b) s = .next t ∧
      ∀ k : Fin 4, t.slots.read (angleOf s.idx k) =
        some { dist := distanceWith cfg.distHiMask s.payload[2 + 4 * k.val] s.payload[3 + 4 * k.val],
               qual := quality s.payload[4 + 4 * k.val] s.payload[5 + 4 * k.val] }) ∧
  (∀ (cfg : Config) (s : State) (b : Byte), cfg.wf → s.st = .readPayload → s.pcount.val = 19 →
    s.verdict b cfg = false → ∃ t, execWith cfg (.rpLast b) s = .next t ∧
      t.errCount = if s.errCount.toNat = 2 ^ cfg.errcntWidth - 1 then s.errCount else s.errCount + 1) ∧
  (∀ (cfg : Config) (s : State), (State.resetWith cfg).speedRaw = cfg.speedReset ∧
    ∃ t, execWith cfg .reset s = .next t ∧ t.speedRaw = cfg.speedReset) ∧
  (∀ (i : Instr) (s : State), execWith Config.block i s = exec i s ∧ stepWith Config.block s = step s ∧
    State.resetWith Config.block = State.reset)

/-- R55, C3, R120: under `SNAP_ATOMICITY = slot`, whatever the other parameters are (and under the model's own value of
`COMMIT_ATOMICITY`, log 24), the last byte of a validated packet writes no slot and no speed, and the five writes that
follow, in whatever order and with nothing between them, complete the commit of the block with the same other parameters
(the machine's form is the model's, log 16). -/
def Obligations.FiveWritesInAnyOrderAreTheCommit : Prop :=
  ∀ (cfg : Config) (s : State) (b : Byte) (order : List MicroEvent),
    cfg.snapAtomicity = .slot ∨ cfg.commitAtomicity = .slot →
    s.st = .readPayload → s.pcount.val = 19 → s.verdict b cfg = true → IsIndex s.idx →
    order.Perm [.writeSlot 0, .writeSlot 1, .writeSlot 2, .writeSlot 3, .writeSpeed] →
    ∃ t v u, execWith cfg (.commit b) s = .next t ∧
      microStep cfg (.event (.event (rxWord b))) ⟨s, [], none⟩ = some v ∧
      v.block = { t with slots := s.slots, speedRaw := s.speedRaw } ∧
      microRun cfg order v = some u ∧ u.snaps = [] ∧ u.commit = none ∧
      u.block = { t with slots := u.block.slots } ∧ ∀ a, u.block.slots.read a = t.slots.read a

/-- R55, R130: under `SNAP_ATOMICITY = slot`, whatever the other parameters are, SNAPSHOT is no single step, and its 360
reads, in whatever order and with nothing between them, return what it returns (the machine's form is the model's,
log 16). -/
def Obligations.ReadsInAnyOrderAreTheSnapshot : Prop :=
  ∀ (cfg : Config) (s : State) (c : Nat) (order : List Nat), cfg.snapAtomicity = .slot → order.Perm (List.range 360) →
    (∀ d : Byte, microStep cfg (.event (.event (4#3 ++ d))) ⟨s, [], none⟩ = none) ∧
    ∃ t, exec .snapshot s = .next t ∧
      microRun cfg (.snapBegin c :: (order.map fun a => .snapRead c a) ++ [.snapEnd c]) ⟨s, [], none⟩ =
        some ⟨t, [], none⟩

/-- R47, R52, R53: no slot is ever torn, under any value of the parameters (the machine's form is the model's, log 16).
A step leaves a slot as it was, or is the write of that slot by the commit under way and writes its packet's whole
sample, or, where a commit is one step (both atomicities at their default, R55, C3), is the last byte of a packet that
validates and writes its whole sample, or is a RESET and unsets it. What a single-slot read copies is what the slot
holds. -/
def Obligations.NoStepTearsASlot : Prop :=
  (∀ (cfg : Config) (e : MicroEvent) (s t : Conforming) (a : Nat),
    (∀ c f g, e = .event c → decode s.block.ctx c ≠ .ok (.frame f) ∧ decode s.block.ctx c ≠ .ok (.sample g)) →
    microStep cfg e s = some t →
    t.block.slots.read a = s.block.slots.read a ∨
    (∃ c k, e = .writeSlot k ∧ s.commit = some c ∧ k ∈ c.slotsLeft ∧ a = angleOf c.idx k ∧
      t.block.slots.read a = some (sampleOf c.packet k cfg)) ∨
    (∃ b k, e = .event (.event (rxWord b)) ∧ cfg.snapAtomicity = .table ∧ cfg.commitAtomicity = .packet ∧ s.commit = none ∧
      s.block.st = .readPayload ∧ s.block.pcount.val = 19 ∧ s.block.verdict b cfg = true ∧
      a = angleOf s.block.idx k ∧ t.block.slots.read a = some (sampleOf (s.block.packet b) k cfg)) ∨
    (t.block.slots.read a = none ∧ ∃ c, e = .event c ∧ decode s.block.ctx c = .ok .reset)) ∧
  (∀ (cfg : Config) (s t : Conforming) (c a : Nat), microStep cfg (.snapRead c a) s = some t →
    ∃ p, findSnap c t.snaps = some p ∧ entryFor a p.got = some (shown (s.block.slots.read a)))
end

