-- ==== Sys2Proof/Laws/Bytes.lean ====
section
/-! SUPPORT. Bytes, byte pairs, packed bytes and event words: each is read back as it was written. -/

namespace Sys2Proof

theorem le16_toNat (lo hi : Byte) : (le16 lo hi).toNat = lo.toNat + 256 * hi.toNat := by
  have h1 := lo.isLt
  have h2 := hi.isLt
  have h3 : (hi.setWidth 16 <<< 8 : Half).toNat = 2 ^ 8 * hi.toNat := by
    rw [BitVec.toNat_shiftLeft, BitVec.toNat_setWidth, Nat.shiftLeft_eq]
    omega
  have h4 : (lo.setWidth 16 : Half).toNat = lo.toNat := by
    rw [BitVec.toNat_setWidth]
    omega
  rw [le16, BitVec.toNat_or, h3, h4, Nat.or_comm, ← Nat.two_pow_add_eq_or_of_lt h1]
  omega

theorem loByte_toNat (v : Half) : (loByte v).toNat = v.toNat % 256 := by simp [loByte]

theorem hiByte_toNat (v : Half) : (hiByte v).toNat = v.toNat / 256 := by
  have := v.isLt
  simp only [hiByte, BitVec.extractLsb'_toNat, Nat.shiftRight_eq_div_pow]
  omega

@[simp] theorem loByte_le16 (lo hi : Byte) : loByte (le16 lo hi) = lo := by
  apply BitVec.eq_of_toNat_eq
  rw [loByte_toNat, le16_toNat]
  have := lo.isLt
  omega

@[simp] theorem hiByte_le16 (lo hi : Byte) : hiByte (le16 lo hi) = hi := by
  apply BitVec.eq_of_toNat_eq
  rw [hiByte_toNat, le16_toNat]
  have := lo.isLt
  omega

@[simp] theorem le16_loByte_hiByte (v : Half) : le16 (loByte v) (hiByte v) = v := by
  apply BitVec.eq_of_toNat_eq
  rw [le16_toNat, loByte_toNat, hiByte_toNat]
  omega

theorem le16_append (lo hi : Byte) : le16 lo hi = hi ++ lo := by
  apply BitVec.eq_of_toNat_eq
  have h1 := lo.isLt
  rw [le16_toNat, BitVec.toNat_append, Nat.shiftLeft_eq, Nat.mul_comm _ (2 ^ 8), ← Nat.two_pow_add_eq_or_of_lt h1]
  omega

theorem mask_toNat (x : Byte) : (x &&& 0x3F#8).toNat = x.toNat % 64 := by
  rw [BitVec.toNat_and]
  exact Nat.and_two_pow_sub_one_eq_mod x.toNat 6

theorem distance_toNat (x0 x1 : Byte) : (Machine.distance x0 x1).toNat = x0.toNat + 256 * (x1.toNat % 64) := by
  have e : (Machine.distance x0 x1).toNat = _ := le16_toNat x0 (x1 &&& 0x3F#8)
  rw [e, mask_toNat]

theorem packBytes_lt : ∀ bs : List Byte, packBytes bs < 256 ^ bs.length
  | [] => by simp [packBytes]
  | b :: rest => by
    have h := packBytes_lt rest
    have hb := b.isLt
    simp only [packBytes, List.length_cons, Nat.pow_succ]
    omega

theorem unpackBytes_packBytes : ∀ bs : List Byte, unpackBytes bs.length (packBytes bs) = bs
  | [] => rfl
  | b :: rest => by
    have hb := b.isLt
    have hd : (b.toNat + 256 * packBytes rest) / 256 = packBytes rest := by omega
    have hm : BitVec.ofNat 8 (b.toNat + 256 * packBytes rest) = b := by
      apply BitVec.eq_of_toNat_eq
      simp only [BitVec.toNat_ofNat]
      omega
    simp [packBytes, unpackBytes, hd, hm, unpackBytes_packBytes rest]

@[simp] theorem unpackBytes_length : ∀ n w : Nat, (unpackBytes n w).length = n
  | 0, _ => rfl
  | n + 1, w => by simp [unpackBytes, unpackBytes_length n]

@[simp] theorem wordKind_eventWord (k : EventKind) (d : Byte) : wordKind (eventWord k d) = some k := by
  cases k <;> revert d <;> decide

@[simp] theorem wordData_eventWord (k : EventKind) (d : Byte) : wordData (eventWord k d) = d := by
  cases k <;> revert d <;> decide

theorem eventWord_kind_data (w : BitVec 11) (k : EventKind) (h : wordKind w = some k) : eventWord k (wordData w) = w := by
  revert w k
  decide

@[simp] theorem frame_bytes_length (f : Frame) : f.bytes.length = 22 := rfl

@[simp] theorem sample_bytes_length (g : SampleGroup) : g.bytes.length = 4 := rfl

end Sys2Proof
end

