-- ==== Sys2Proof/Laws/Checksum.lean ====
section
/-! SUPPORT. The fold over exact numbers: in an accumulator that does not overflow a fold step doubles and adds. -/

namespace Sys2Proof.Machine

open Sys2Proof

theorem foldStep_toNat {W : Nat} (hW : 16 ≤ W) (acc : BitVec W) (w : Half) (h : 2 * acc.toNat + w.toNat < 2 ^ W) :
    (foldStep W acc w).toNat = 2 * acc.toNat + w.toNat := by
  have hw : w.toNat < 2 ^ W := Nat.lt_of_lt_of_le w.isLt (Nat.pow_le_pow_right (by decide) hW)
  simp only [foldStep, BitVec.toNat_add, BitVec.toNat_shiftLeft, BitVec.toNat_setWidth, Nat.shiftLeft_eq]
  rw [Nat.mod_eq_of_lt hw, Nat.mod_eq_of_lt (a := acc.toNat * 2 ^ 1) (by omega), Nat.mod_eq_of_lt (by omega)]
  omega

@[simp] theorem wordsOf_length : ∀ bs : List Byte, (wordsOf bs).length = bs.length / 2
  | [] => rfl
  | [_] => by simp [wordsOf]
  | _ :: _ :: rest => by simp only [wordsOf, List.length_cons, wordsOf_length rest]; omega

/-- Word `i` of a byte list is its bytes `2i` and `2i + 1`. -/
theorem wordsOf_getElem? : ∀ (bs : List Byte) (i : Nat) (h : 2 * i + 1 < bs.length),
    (wordsOf bs)[i]? = some (le16 bs[2 * i] bs[2 * i + 1])
  | [_], _, h => by simp at h
  | _ :: _ :: _, 0, _ => rfl
  | _ :: _ :: rest, i + 1, h => by
    have h' : 2 * i + 1 < rest.length := by simp only [List.length_cons] at h; omega
    simpa [wordsOf, Nat.mul_add] using wordsOf_getElem? rest i h'

end Sys2Proof.Machine
end

