-- ==== Sys2Proof/Laws/State.lean ====
section
/-! SUPPORT. One lemma per field per named update of `State`, true by `rfl`, and the context of a state. -/

namespace Sys2Proof.Machine

open Sys2Proof

@[simp] theorem ctx_st (s : State) : s.ctx.st = s.st := rfl
@[simp] theorem ctx_pcount (s : State) : s.ctx.pcount = s.pcount := rfl
@[simp] theorem ctx_verdict (s : State) : s.ctx.verdict = none := rfl
@[simp] theorem taken_ctx (s : State) (rest : List Code) : (s.taken rest).ctx = s.ctx := rfl
@[simp] theorem taken_verdict (s : State) (rest : List Code) (b : Byte) (cfg : Config) :
    (s.taken rest).verdict b cfg = s.verdict b cfg := rfl

/-! ### `State.taken` -/

@[simp] theorem taken_st (s : State) (rest : List Code) : (s.taken rest).st = s.st := rfl
@[simp] theorem taken_pcount (s : State) (rest : List Code) : (s.taken rest).pcount = s.pcount := rfl
@[simp] theorem taken_idx (s : State) (rest : List Code) : (s.taken rest).idx = s.idx := rfl
@[simp] theorem taken_payload (s : State) (rest : List Code) : (s.taken rest).payload = s.payload := rfl
@[simp] theorem taken_slots (s : State) (rest : List Code) : (s.taken rest).slots = s.slots := rfl
@[simp] theorem taken_speedRaw (s : State) (rest : List Code) : (s.taken rest).speedRaw = s.speedRaw := rfl
@[simp] theorem taken_errCount (s : State) (rest : List Code) : (s.taken rest).errCount = s.errCount := rfl
@[simp] theorem taken_haltCause (s : State) (rest : List Code) : (s.taken rest).haltCause = s.haltCause := rfl
@[simp] theorem taken_out (s : State) (rest : List Code) : (s.taken rest).out = none := rfl
@[simp] theorem taken_pending (s : State) (rest : List Code) : (s.taken rest).pending = rest := rfl
@[simp] theorem taken_draws (s : State) (rest : List Code) : (s.taken rest).draws = s.draws := rfl

/-! ### `State.commit` -/

@[simp] theorem commit_st (s : State) (idx : Byte) (p : Vector Byte 20) (cfg : Config) : (s.commit idx p cfg).st = s.st := rfl
@[simp] theorem commit_pcount (s : State) (idx : Byte) (p : Vector Byte 20) (cfg : Config) : (s.commit idx p cfg).pcount = s.pcount := rfl
@[simp] theorem commit_idx (s : State) (idx : Byte) (p : Vector Byte 20) (cfg : Config) : (s.commit idx p cfg).idx = s.idx := rfl
@[simp] theorem commit_payload (s : State) (idx : Byte) (p : Vector Byte 20) (cfg : Config) : (s.commit idx p cfg).payload = s.payload := rfl
@[simp] theorem commit_slots (s : State) (idx : Byte) (p : Vector Byte 20) (cfg : Config) : (s.commit idx p cfg).slots = commitSlots s.slots idx p cfg := rfl
@[simp] theorem commit_speedRaw (s : State) (idx : Byte) (p : Vector Byte 20) (cfg : Config) : (s.commit idx p cfg).speedRaw = speedOf p := rfl
@[simp] theorem commit_errCount (s : State) (idx : Byte) (p : Vector Byte 20) (cfg : Config) : (s.commit idx p cfg).errCount = s.errCount := rfl
@[simp] theorem commit_haltCause (s : State) (idx : Byte) (p : Vector Byte 20) (cfg : Config) : (s.commit idx p cfg).haltCause = s.haltCause := rfl
@[simp] theorem commit_out (s : State) (idx : Byte) (p : Vector Byte 20) (cfg : Config) : (s.commit idx p cfg).out = s.out := rfl
@[simp] theorem commit_pending (s : State) (idx : Byte) (p : Vector Byte 20) (cfg : Config) : (s.commit idx p cfg).pending = s.pending := rfl
@[simp] theorem commit_draws (s : State) (idx : Byte) (p : Vector Byte 20) (cfg : Config) : (s.commit idx p cfg).draws = s.draws := rfl

/-! ### `State.drop` -/

@[simp] theorem drop_st (s : State) (cfg : Config) : (s.drop cfg).st = s.st := rfl
@[simp] theorem drop_pcount (s : State) (cfg : Config) : (s.drop cfg).pcount = s.pcount := rfl
@[simp] theorem drop_idx (s : State) (cfg : Config) : (s.drop cfg).idx = s.idx := rfl
@[simp] theorem drop_payload (s : State) (cfg : Config) : (s.drop cfg).payload = s.payload := rfl
@[simp] theorem drop_slots (s : State) (cfg : Config) : (s.drop cfg).slots = s.slots := rfl
@[simp] theorem drop_speedRaw (s : State) (cfg : Config) : (s.drop cfg).speedRaw = s.speedRaw := rfl
@[simp] theorem drop_errCount (s : State) (cfg : Config) : (s.drop cfg).errCount = saturatingSucc s.errCount cfg := rfl
@[simp] theorem drop_haltCause (s : State) (cfg : Config) : (s.drop cfg).haltCause = s.haltCause := rfl
@[simp] theorem drop_out (s : State) (cfg : Config) : (s.drop cfg).out = s.out := rfl
@[simp] theorem drop_pending (s : State) (cfg : Config) : (s.drop cfg).pending = s.pending := rfl
@[simp] theorem drop_draws (s : State) (cfg : Config) : (s.drop cfg).draws = s.draws := rfl

/-! ### `State.endFrame` -/

@[simp] theorem endFrame_st (s : State) (b : Byte) : (s.endFrame b).st = .seekStart := rfl
@[simp] theorem endFrame_pcount (s : State) (b : Byte) : (s.endFrame b).pcount = 0 := rfl
@[simp] theorem endFrame_idx (s : State) (b : Byte) : (s.endFrame b).idx = s.idx := rfl
@[simp] theorem endFrame_payload (s : State) (b : Byte) : (s.endFrame b).payload = s.payload.set 19 b := rfl
@[simp] theorem endFrame_slots (s : State) (b : Byte) : (s.endFrame b).slots = s.slots := rfl
@[simp] theorem endFrame_speedRaw (s : State) (b : Byte) : (s.endFrame b).speedRaw = s.speedRaw := rfl
@[simp] theorem endFrame_errCount (s : State) (b : Byte) : (s.endFrame b).errCount = s.errCount := rfl
@[simp] theorem endFrame_haltCause (s : State) (b : Byte) : (s.endFrame b).haltCause = s.haltCause := rfl
@[simp] theorem endFrame_out (s : State) (b : Byte) : (s.endFrame b).out = s.out := rfl
@[simp] theorem endFrame_pending (s : State) (b : Byte) : (s.endFrame b).pending = s.pending := rfl
@[simp] theorem endFrame_draws (s : State) (b : Byte) : (s.endFrame b).draws = s.draws := rfl

/-! ### `State.withFetchWord` -/

@[simp] theorem withFetchWord_st (s : State) (nbits w : Nat) : (s.withFetchWord nbits w).st = s.st := rfl
@[simp] theorem withFetchWord_pcount (s : State) (nbits w : Nat) : (s.withFetchWord nbits w).pcount = s.pcount := rfl
@[simp] theorem withFetchWord_idx (s : State) (nbits w : Nat) : (s.withFetchWord nbits w).idx = s.idx := rfl
@[simp] theorem withFetchWord_payload (s : State) (nbits w : Nat) : (s.withFetchWord nbits w).payload = s.payload := rfl
@[simp] theorem withFetchWord_slots (s : State) (nbits w : Nat) : (s.withFetchWord nbits w).slots = s.slots := rfl
@[simp] theorem withFetchWord_speedRaw (s : State) (nbits w : Nat) : (s.withFetchWord nbits w).speedRaw = s.speedRaw := rfl
@[simp] theorem withFetchWord_errCount (s : State) (nbits w : Nat) : (s.withFetchWord nbits w).errCount = s.errCount := rfl
@[simp] theorem withFetchWord_haltCause (s : State) (nbits w : Nat) : (s.withFetchWord nbits w).haltCause = s.haltCause := rfl
@[simp] theorem withFetchWord_out (s : State) (nbits w : Nat) : (s.withFetchWord nbits w).out = s.out := rfl
@[simp] theorem withFetchWord_pending (s : State) (nbits w : Nat) : (s.withFetchWord nbits w).pending = codeOfBits nbits w :: s.pending := rfl
@[simp] theorem withFetchWord_draws (s : State) (nbits w : Nat) : (s.withFetchWord nbits w).draws = s.draws := rfl

/-! ### `State.takeAnomaly .startNotFound` -/

@[simp] theorem takeStartNotFound_st (s : State) (cfg : Config) : (s.takeAnomaly .startNotFound cfg).st = s.st := rfl
@[simp] theorem takeStartNotFound_pcount (s : State) (cfg : Config) : (s.takeAnomaly .startNotFound cfg).pcount = s.pcount := rfl
@[simp] theorem takeStartNotFound_idx (s : State) (cfg : Config) : (s.takeAnomaly .startNotFound cfg).idx = s.idx := rfl
@[simp] theorem takeStartNotFound_payload (s : State) (cfg : Config) : (s.takeAnomaly .startNotFound cfg).payload = s.payload := rfl
@[simp] theorem takeStartNotFound_slots (s : State) (cfg : Config) : (s.takeAnomaly .startNotFound cfg).slots = s.slots := rfl
@[simp] theorem takeStartNotFound_speedRaw (s : State) (cfg : Config) : (s.takeAnomaly .startNotFound cfg).speedRaw = s.speedRaw := rfl
@[simp] theorem takeStartNotFound_errCount (s : State) (cfg : Config) : (s.takeAnomaly .startNotFound cfg).errCount = s.errCount := rfl
@[simp] theorem takeStartNotFound_haltCause (s : State) (cfg : Config) : (s.takeAnomaly .startNotFound cfg).haltCause = s.haltCause := rfl
@[simp] theorem takeStartNotFound_out (s : State) (cfg : Config) : (s.takeAnomaly .startNotFound cfg).out = s.out := rfl
@[simp] theorem takeStartNotFound_pending (s : State) (cfg : Config) : (s.takeAnomaly .startNotFound cfg).pending = s.pending := rfl
@[simp] theorem takeStartNotFound_draws (s : State) (cfg : Config) : (s.takeAnomaly .startNotFound cfg).draws = s.draws := rfl

/-! ### `State.takeAnomaly .indexInvalid` -/

@[simp] theorem takeIndexInvalid_st (s : State) (cfg : Config) : (s.takeAnomaly .indexInvalid cfg).st = .seekStart := rfl
@[simp] theorem takeIndexInvalid_pcount (s : State) (cfg : Config) : (s.takeAnomaly .indexInvalid cfg).pcount = s.pcount := rfl
@[simp] theorem takeIndexInvalid_idx (s : State) (cfg : Config) : (s.takeAnomaly .indexInvalid cfg).idx = s.idx := rfl
@[simp] theorem takeIndexInvalid_payload (s : State) (cfg : Config) : (s.takeAnomaly .indexInvalid cfg).payload = s.payload := rfl
@[simp] theorem takeIndexInvalid_slots (s : State) (cfg : Config) : (s.takeAnomaly .indexInvalid cfg).slots = s.slots := rfl
@[simp] theorem takeIndexInvalid_speedRaw (s : State) (cfg : Config) : (s.takeAnomaly .indexInvalid cfg).speedRaw = s.speedRaw := rfl
@[simp] theorem takeIndexInvalid_errCount (s : State) (cfg : Config) : (s.takeAnomaly .indexInvalid cfg).errCount = s.errCount := rfl
@[simp] theorem takeIndexInvalid_haltCause (s : State) (cfg : Config) : (s.takeAnomaly .indexInvalid cfg).haltCause = s.haltCause := rfl
@[simp] theorem takeIndexInvalid_out (s : State) (cfg : Config) : (s.takeAnomaly .indexInvalid cfg).out = s.out := rfl
@[simp] theorem takeIndexInvalid_pending (s : State) (cfg : Config) : (s.takeAnomaly .indexInvalid cfg).pending = s.pending := rfl
@[simp] theorem takeIndexInvalid_draws (s : State) (cfg : Config) : (s.takeAnomaly .indexInvalid cfg).draws = s.draws := rfl

/-! ### `State.takeAnomaly .checksumMismatch` -/

@[simp] theorem takeChecksumMismatch_st (s : State) (cfg : Config) : (s.takeAnomaly .checksumMismatch cfg).st = s.st := rfl
@[simp] theorem takeChecksumMismatch_pcount (s : State) (cfg : Config) : (s.takeAnomaly .checksumMismatch cfg).pcount = s.pcount := rfl
@[simp] theorem takeChecksumMismatch_idx (s : State) (cfg : Config) : (s.takeAnomaly .checksumMismatch cfg).idx = s.idx := rfl
@[simp] theorem takeChecksumMismatch_payload (s : State) (cfg : Config) : (s.takeAnomaly .checksumMismatch cfg).payload = s.payload := rfl
@[simp] theorem takeChecksumMismatch_slots (s : State) (cfg : Config) : (s.takeAnomaly .checksumMismatch cfg).slots = s.slots := rfl
@[simp] theorem takeChecksumMismatch_speedRaw (s : State) (cfg : Config) : (s.takeAnomaly .checksumMismatch cfg).speedRaw = s.speedRaw := rfl
@[simp] theorem takeChecksumMismatch_errCount (s : State) (cfg : Config) : (s.takeAnomaly .checksumMismatch cfg).errCount = saturatingSucc s.errCount cfg := rfl
@[simp] theorem takeChecksumMismatch_haltCause (s : State) (cfg : Config) : (s.takeAnomaly .checksumMismatch cfg).haltCause = s.haltCause := rfl
@[simp] theorem takeChecksumMismatch_out (s : State) (cfg : Config) : (s.takeAnomaly .checksumMismatch cfg).out = s.out := rfl
@[simp] theorem takeChecksumMismatch_pending (s : State) (cfg : Config) : (s.takeAnomaly .checksumMismatch cfg).pending = s.pending := rfl
@[simp] theorem takeChecksumMismatch_draws (s : State) (cfg : Config) : (s.takeAnomaly .checksumMismatch cfg).draws = s.draws := rfl

/-! ### `State.takeAnomaly .ioFailure` -/

@[simp] theorem takeIoFailure_st (s : State) (cfg : Config) : (s.takeAnomaly .ioFailure cfg).st = .halted := rfl
@[simp] theorem takeIoFailure_pcount (s : State) (cfg : Config) : (s.takeAnomaly .ioFailure cfg).pcount = s.pcount := rfl
@[simp] theorem takeIoFailure_idx (s : State) (cfg : Config) : (s.takeAnomaly .ioFailure cfg).idx = s.idx := rfl
@[simp] theorem takeIoFailure_payload (s : State) (cfg : Config) : (s.takeAnomaly .ioFailure cfg).payload = s.payload := rfl
@[simp] theorem takeIoFailure_slots (s : State) (cfg : Config) : (s.takeAnomaly .ioFailure cfg).slots = s.slots := rfl
@[simp] theorem takeIoFailure_speedRaw (s : State) (cfg : Config) : (s.takeAnomaly .ioFailure cfg).speedRaw = s.speedRaw := rfl
@[simp] theorem takeIoFailure_errCount (s : State) (cfg : Config) : (s.takeAnomaly .ioFailure cfg).errCount = s.errCount := rfl
@[simp] theorem takeIoFailure_haltCause (s : State) (cfg : Config) : (s.takeAnomaly .ioFailure cfg).haltCause = .ioFailure := rfl
@[simp] theorem takeIoFailure_out (s : State) (cfg : Config) : (s.takeAnomaly .ioFailure cfg).out = s.out := rfl
@[simp] theorem takeIoFailure_pending (s : State) (cfg : Config) : (s.takeAnomaly .ioFailure cfg).pending = s.pending := rfl
@[simp] theorem takeIoFailure_draws (s : State) (cfg : Config) : (s.takeAnomaly .ioFailure cfg).draws = s.draws := rfl

end Sys2Proof.Machine
end

