-- ==== Sys2Proof/Laws/Table.lean ====
section
/-! SUPPORT. The ScanTable: a read after a write, and that every memory operation keeps the canonical form. -/

namespace Sys2Proof.Machine

open Sys2Proof

theorem readCells_writeCells : ∀ (cs : List (Nat × Sample)) (a b : Nat) (v : Sample),
    readCells (writeCells cs a v) b = if b = a then some v else readCells cs b
  | [], a, b, v => rfl
  | (k, w) :: rest, a, b, v => by
    have ih := readCells_writeCells rest a b v
    simp only [writeCells]
    split
    · rfl
    · split
      · rename_i h
        subst h
        simp only [readCells]
        split <;> rfl
      · rename_i h1 h2
        simp only [readCells, ih]
        split
        · rename_i h3
          rw [if_neg (by omega)]
        · rfl

theorem read_write (m : Memory) (a b : Nat) (v : Sample) :
    (m.write a v).read b = if b = a then some v else m.read b := readCells_writeCells m.cells a b v

@[simp] theorem read_write_same (m : Memory) (a : Nat) (v : Sample) : (m.write a v).read a = some v := by
  simp [read_write]

theorem read_write_other (m : Memory) {a b : Nat} (v : Sample) (h : b ≠ a) : (m.write a v).read b = m.read b := by
  simp [read_write, h]

@[simp] theorem read_cleared (a : Nat) : Memory.cleared.read a = none := rfl

@[simp] theorem read_nil (a : Nat) : Memory.read ⟨[]⟩ a = none := rfl

theorem mem_writeCells : ∀ (cs : List (Nat × Sample)) (a : Nat) (v : Sample) (c : Nat × Sample),
    c ∈ writeCells cs a v → c = (a, v) ∨ c ∈ cs
  | [], a, v, c, h => by simpa [writeCells] using h
  | (k, w) :: rest, a, v, c, h => by
    have ih := mem_writeCells rest a v c
    simp only [writeCells] at h
    split at h
    · simpa using h
    · split at h
      · simp only [List.mem_cons] at h ⊢
        tauto
      · simp only [List.mem_cons] at h ⊢
        tauto

theorem writeCells_rising : ∀ (cs : List (Nat × Sample)) (a : Nat) (v : Sample),
    cs.Pairwise (fun x y => x.1 < y.1) → (writeCells cs a v).Pairwise (fun x y => x.1 < y.1)
  | [], a, v, _ => by simp [writeCells]
  | (k, w) :: rest, a, v, h => by
    have ⟨h1, h2⟩ := List.pairwise_cons.mp h
    simp only [writeCells]
    split
    · rename_i hlt
      refine List.pairwise_cons.mpr ⟨fun c hc => ?_, h⟩
      rcases List.mem_cons.mp hc with rfl | hc
      · exact hlt
      · exact Nat.lt_trans hlt (h1 c hc)
    · split
      · rename_i heq
        subst heq
        exact List.pairwise_cons.mpr ⟨h1, h2⟩
      · rename_i hlt hne
        refine List.pairwise_cons.mpr ⟨fun c hc => ?_, writeCells_rising rest a v h2⟩
        rcases mem_writeCells rest a v c hc with rfl | hc
        · show k < a
          omega
        · exact h1 c hc

theorem write_wf (m : Memory) (a : Nat) (v : Sample) (ha : a < Config.nSlots) (h : m.wf) : (m.write a v).wf := by
  refine ⟨writeCells_rising m.cells a v h.1, fun c hc => ?_⟩
  rcases mem_writeCells m.cells a v c hc with rfl | hc
  · exact ha
  · exact h.2 c hc

theorem cleared_wf : Memory.cleared.wf := by decide

theorem reset_wf : State.reset.slots.wf := by decide

/-- A cell of a table in canonical form is what its angle reads as. -/
theorem readCells_of_mem : ∀ (cs : List (Nat × Sample)) (c : Nat × Sample),
    cs.Pairwise (fun x y => x.1 < y.1) → c ∈ cs → readCells cs c.1 = some c.2
  | (k, w) :: rest, c, h, hc => by
    have ⟨h1, h2⟩ := List.pairwise_cons.mp h
    rcases List.mem_cons.mp hc with rfl | hc
    · simp [readCells]
    · have : c.1 ≠ k := by have := h1 c hc; omega
      simp [readCells, this, readCells_of_mem rest c h2 hc]

/-- Angles outside R40's address space are unset in a table in canonical form. -/
theorem read_outside (m : Memory) (h : m.wf) {a : Nat} (ha : Config.nSlots ≤ a) : m.read a = none := by
  have aux : ∀ cs : List (Nat × Sample), (∀ c ∈ cs, c.1 < Config.nSlots) → readCells cs a = none := by
    intro cs
    induction cs with
    | nil => intro _; rfl
    | cons c rest ih =>
      intro hc
      have h1 := hc c (by simp)
      have : a ≠ c.1 := by omega
      simp [readCells, this, ih fun x hx => hc x (by simp [hx])]
  exact aux m.cells h.2

/-! ### The commit's four writes -/

theorem angleOf_val (idx : Byte) (k : Fin 4) : angleOf idx k = rotationIndex idx * 4 + k.val := rfl

theorem isIndex_iff (b : Byte) : IsIndex b ↔ 160 ≤ b.toNat ∧ b.toNat ≤ 249 := Iff.rfl

theorem rotationIndex_eq (idx : Byte) : rotationIndex idx = idx.toNat - 160 := rfl

theorem rotationIndex_lt {idx : Byte} (h : IsIndex idx) : rotationIndex idx < 90 := by
  have := (isIndex_iff idx).mp h
  rw [rotationIndex_eq]
  omega

theorem angleOf_lt {idx : Byte} (h : IsIndex idx) (k : Fin 4) : angleOf idx k < Config.nSlots := by
  have := rotationIndex_lt h
  have := k.isLt
  simp only [angleOf, Config.nSlots]
  omega

theorem angle_div (idx : Byte) (k : Fin 4) : angleOf idx k / 4 = rotationIndex idx := by
  have := k.isLt
  simp only [angleOf]; omega

theorem rot_inj {a b : Byte} (ha : IsIndex a) (hb : IsIndex b) (h : rotationIndex a = rotationIndex b) : a = b := by
  have := (isIndex_iff a).mp ha
  have := (isIndex_iff b).mp hb
  rw [rotationIndex_eq, rotationIndex_eq] at h
  exact BitVec.eq_of_toNat_eq (by omega)

/-- What a commit leaves in every slot (R120): its own four, whole; every other as it was. -/
theorem read_commitSlots {cfg : Config} (m : Memory) (idx : Byte) (p : Vector Byte 20) (a : Nat) :
    (commitSlots m idx p cfg).read a =
      if a = angleOf idx 3 then some (sampleOf p 3 cfg)
      else if a = angleOf idx 2 then some (sampleOf p 2 cfg)
      else if a = angleOf idx 1 then some (sampleOf p 1 cfg)
      else if a = angleOf idx 0 then some (sampleOf p 0 cfg)
      else m.read a := by
  simp only [commitSlots, read_write]

theorem read_commitSlots_own {cfg : Config} (m : Memory) (idx : Byte) (p : Vector Byte 20) (k : Fin 4) :
    (commitSlots m idx p cfg).read (angleOf idx k) = some (sampleOf p k cfg) := by
  rw [read_commitSlots]
  fin_cases k <;> simp [angleOf]

theorem read_commitSlots_other {cfg : Config} (m : Memory) (idx : Byte) (p : Vector Byte 20) (a : Nat)
    (h : ∀ k : Fin 4, a ≠ angleOf idx k) : (commitSlots m idx p cfg).read a = m.read a := by
  rw [read_commitSlots, if_neg (h 3), if_neg (h 2), if_neg (h 1), if_neg (h 0)]

theorem commitSlots_wf {cfg : Config} (m : Memory) (idx : Byte) (p : Vector Byte 20) (hi : IsIndex idx) (h : m.wf) :
    (commitSlots m idx p cfg).wf :=
  write_wf _ _ _ (angleOf_lt hi 3) <| write_wf _ _ _ (angleOf_lt hi 2) <| write_wf _ _ _ (angleOf_lt hi 1) <|
    write_wf _ _ _ (angleOf_lt hi 0) h

end Sys2Proof.Machine
end

