-- ==== Sys2Proof/Laws/Framer.lean ====
section
/-! SUPPORT. The byte operations: sequencing, the classification of a byte, what one delivered byte does in each
state of the FSM, and once and for all what it can do. -/

namespace Sys2Proof.Machine

open Sys2Proof

/-! ### Sequencing and guards -/

@[simp] theorem andThen_next (s : State) (f : State → Result) : andThen (.next s) f = f s := rfl
@[simp] theorem andThen_fault (e : Fault) (f : State → Result) : andThen (.fault e) f = .fault e := rfl
@[simp] theorem andThen_refused (e : Refusal) (f : State → Result) : andThen (.refused e) f = .refused e := rfl

theorem andThen_eq_next {r : Result} {f : State → Result} {t : State} (h : andThen r f = .next t) :
    ∃ s, r = .next s ∧ f s = .next t := by
  cases r with
  | next s => exact ⟨s, rfl, h⟩
  | fault e => cases h
  | refused e => cases h

theorem andThen_assoc (r : Result) (f g : State → Result) :
    andThen (andThen r f) g = andThen r fun s => andThen (f s) g := by
  cases r <;> rfl

@[simp] theorem andThen_next_right (r : Result) : andThen r .next = r := by
  cases r <;> rfl

@[simp] theorem guarded_true (r : Result) : guarded true r = r := rfl
@[simp] theorem guarded_false (r : Result) : guarded false r = .refused .notApplicable := rfl

theorem guarded_eq_next {ok : Bool} {r : Result} {t : State} (h : guarded ok r = .next t) : ok = true ∧ r = .next t := by
  cases ok with
  | true => exact ⟨rfl, h⟩
  | false => cases h

@[simp] theorem eachByte_nil (f : Byte → State → Result) (s : State) : eachByte f [] s = .next s := rfl

@[simp] theorem eachByte_cons (f : Byte → State → Result) (b : Byte) (bs : List Byte) (s : State) :
    eachByte f (b :: bs) s = andThen (f b s) (eachByte f bs) := rfl

theorem eachByte_append (f : Byte → State → Result) : ∀ (xs ys : List Byte) (s : State),
    eachByte f (xs ++ ys) s = andThen (eachByte f xs s) (eachByte f ys)
  | [], ys, s => rfl
  | x :: xs, ys, s => by
    simp only [List.cons_append, eachByte_cons, andThen_assoc]
    congr 1
    funext t
    exact eachByte_append f xs ys t

theorem deliverAll_cons (b : Byte) (bs : List Byte) (s : State) :
    deliverAll (b :: bs) s = andThen (deliver b s) (deliverAll bs) := rfl

theorem deliverAll_append (xs ys : List Byte) (s : State) :
    deliverAll (xs ++ ys) s = andThen (deliverAll xs s) (deliverAll ys) := eachByte_append deliver xs ys s

/-! ### The classification (R66, R67) -/

theorem byteClass_index (b : Byte) : byteClass b = .index ↔ IsIndex b := by
  revert b; decide

theorem byteClass_start (b : Byte) : byteClass b = .start ↔ b = Config.startByte := by
  revert b; decide

theorem byteClass_abort (b : Byte) : byteClass b = .low ∨ byteClass b = .high ↔ ¬ IsIndex b ∧ b ≠ Config.startByte := by
  revert b; decide

theorem abort_range (b : Byte) : (b ≤ 0x9F#8 ∨ 0xFB#8 ≤ b) ↔ ¬ IsIndex b ∧ b ≠ Config.startByte := by
  revert b; decide

theorem classify_index {b : Byte} (h : IsIndex b) (n : Fin 20) : classify .readIndex n b = .riIndex := by
  simp [classify, (byteClass_index b).mpr h]

theorem classify_restart (n : Fin 20) : classify .readIndex n Config.startByte = .riRestart := by
  simp [classify, (byteClass_start Config.startByte).mpr rfl]

theorem classify_abort {b : Byte} (h : ¬ IsIndex b) (h' : b ≠ Config.startByte) (n : Fin 20) :
    classify .readIndex n b = .riAbort := by
  rcases (byteClass_abort b).mpr ⟨h, h'⟩ with hc | hc <;> simp [classify, hc]

/-! ### One delivered byte, state by state, under any parameters -/

theorem deliverWith_start {cfg : Config} {s : State} (h : s.st = .seekStart) :
    deliverWith cfg Config.startByte s = .next { s with st := .readIndex } := by
  simp [deliverWith, classify, h, execSsStart]

theorem deliverWith_skip {cfg : Config} {s : State} {b : Byte} (h : s.st = .seekStart) (hb : b ≠ Config.startByte) :
    deliverWith cfg b s = .next s := by
  simp [deliverWith, classify, h, hb, execSsSkip, State.takeAnomaly]

theorem deliverWith_index {cfg : Config} {s : State} {b : Byte} (h : s.st = .readIndex) (hb : IsIndex b) :
    deliverWith cfg b s = .next { s with idx := b, pcount := 0, st := .readPayload } := by
  simp only [deliverWith, h, classify_index hb]
  simp [execRiIndex, h]

theorem deliverWith_restart {cfg : Config} {s : State} (h : s.st = .readIndex) : deliverWith cfg Config.startByte s = .next s := by
  simp only [deliverWith, h, classify_restart]
  simp [execRiRestart, h]

theorem deliverWith_abort {cfg : Config} {s : State} {b : Byte} (h : s.st = .readIndex) (hb : ¬ IsIndex b) (hb' : b ≠ Config.startByte) :
    deliverWith cfg b s = .next { s with st := .seekStart } := by
  simp only [deliverWith, h, classify_abort hb hb']
  simp [execRiAbort, h, State.takeAnomaly]

theorem deliverWith_data {cfg : Config} {s : State} (b : Byte) (h : s.st = .readPayload) (hn : s.pcount.val ≤ 18) :
    deliverWith cfg b s = .next { s with payload := s.payload.set s.pcount b, pcount := s.pcount + 1 } := by
  simp [deliverWith, classify, h, hn, execRpData]

theorem deliverWith_last {cfg : Config} {s : State} (b : Byte) (h : s.st = .readPayload) (hn : s.pcount.val = 19) :
    deliverWith cfg b s = if s.verdict b cfg then s.lastCommit b cfg else s.lastDrop b cfg := by
  simp [deliverWith, classify, h, hn, execRpLastWith]

theorem deliverWith_halted {cfg : Config} {s : State} (b : Byte) (h : s.st = .halted) : deliverWith cfg b s = .next s := by
  simp [deliverWith, classify, h, execHaltIgnore]

theorem lastCommit_next {cfg : Config} {s : State} (b : Byte) (h : IsIndex s.idx) :
    s.lastCommit b cfg = .next ((s.commit s.idx (s.packet b) cfg).endFrame b) := by
  simp [State.lastCommit, h]

theorem lastDrop_next (s : State) (b : Byte) (cfg : Config) : s.lastDrop b cfg = .next ((s.drop cfg).endFrame b) := rfl

/-- All a delivered byte can do (R92): one case per operation and outcome. -/
theorem deliverWith_cases {cfg : Config} {s t : State} {b : Byte} (h : deliverWith cfg b s = .next t) :
    (s.st = .seekStart ∧ b = Config.startByte ∧ t = { s with st := .readIndex }) ∨
    (s.st = .seekStart ∧ b ≠ Config.startByte ∧ t = s) ∨
    (s.st = .readIndex ∧ IsIndex b ∧ t = { s with idx := b, pcount := 0, st := .readPayload }) ∨
    (s.st = .readIndex ∧ b = Config.startByte ∧ t = s) ∨
    (s.st = .readIndex ∧ ¬ IsIndex b ∧ b ≠ Config.startByte ∧ t = { s with st := .seekStart }) ∨
    (s.st = .readPayload ∧ s.pcount.val ≤ 18 ∧
      t = { s with payload := s.payload.set s.pcount b, pcount := s.pcount + 1 }) ∨
    (s.st = .readPayload ∧ s.pcount.val = 19 ∧ s.verdict b cfg = true ∧ IsIndex s.idx ∧
      t = (s.commit s.idx (s.packet b) cfg).endFrame b) ∨
    (s.st = .readPayload ∧ s.pcount.val = 19 ∧ s.verdict b cfg = false ∧ t = (s.drop cfg).endFrame b) ∨
    (s.st = .halted ∧ t = s) := by
  rcases hst : s.st with _ | _ | _ | _
  · by_cases hb : b = Config.startByte
    · subst hb
      rw [deliverWith_start hst] at h
      cases h
      exact .inl ⟨rfl, rfl, rfl⟩
    · rw [deliverWith_skip hst hb] at h
      cases h
      exact .inr (.inl ⟨rfl, hb, rfl⟩)
  · by_cases hi : IsIndex b
    · rw [deliverWith_index hst hi] at h
      cases h
      exact .inr (.inr (.inl ⟨rfl, hi, rfl⟩))
    · by_cases hb : b = Config.startByte
      · subst hb
        rw [deliverWith_restart hst] at h
        cases h
        exact .inr (.inr (.inr (.inl ⟨rfl, rfl, rfl⟩)))
      · rw [deliverWith_abort hst hi hb] at h
        cases h
        exact .inr (.inr (.inr (.inr (.inl ⟨rfl, hi, hb, rfl⟩))))
  · by_cases hn : s.pcount.val ≤ 18
    · rw [deliverWith_data b hst hn] at h
      cases h
      exact .inr (.inr (.inr (.inr (.inr (.inl ⟨rfl, hn, by simp [hst]⟩)))))
    · have hn' : s.pcount.val = 19 := by have := s.pcount.isLt; omega
      rw [deliverWith_last b hst hn'] at h
      cases hv : s.verdict b cfg with
      | true =>
        rw [hv, if_pos rfl] at h
        by_cases hi : IsIndex s.idx
        · rw [lastCommit_next b hi] at h
          cases h
          exact .inr (.inr (.inr (.inr (.inr (.inr (.inl ⟨rfl, hn', rfl, hi, rfl⟩))))))
        · simp [State.lastCommit, hi] at h
      | false =>
        rw [hv, if_neg (by decide), lastDrop_next] at h
        cases h
        exact .inr (.inr (.inr (.inr (.inr (.inr (.inr (.inl ⟨rfl, hn', rfl, rfl⟩)))))))
  · rw [deliverWith_halted b hst] at h
    cases h
    exact .inr (.inr (.inr (.inr (.inr (.inr (.inr (.inr ⟨rfl, rfl⟩)))))))

/-- Where a byte gives a next state: everywhere but at a commit with an `idx` that is no index byte. -/
theorem deliverWith_completes {cfg : Config} {s : State} (h : s.st = .readPayload → IsIndex s.idx) (b : Byte) :
    ∃ t, deliverWith cfg b s = .next t := by
  rcases hst : s.st with _ | _ | _ | _
  · by_cases hb : b = Config.startByte
    · exact ⟨_, hb ▸ deliverWith_start hst⟩
    · exact ⟨_, deliverWith_skip hst hb⟩
  · by_cases hi : IsIndex b
    · exact ⟨_, deliverWith_index hst hi⟩
    · by_cases hb : b = Config.startByte
      · exact ⟨_, hb ▸ deliverWith_restart hst⟩
      · exact ⟨_, deliverWith_abort hst hi hb⟩
  · by_cases hn : s.pcount.val ≤ 18
    · exact ⟨_, deliverWith_data b hst hn⟩
    · rw [deliverWith_last b hst (by have := s.pcount.isLt; omega)]
      split
      · exact ⟨_, lastCommit_next b (h hst)⟩
      · exact ⟨_, rfl⟩
  · exact ⟨_, deliverWith_halted b hst⟩

/-! ### The same of this block's `deliver` -/

theorem deliver_start {s : State} (h : s.st = .seekStart) :
    deliver Config.startByte s = .next { s with st := .readIndex } := deliverWith_start h

theorem deliver_skip {s : State} {b : Byte} (h : s.st = .seekStart) (hb : b ≠ Config.startByte) :
    deliver b s = .next s := deliverWith_skip h hb

theorem deliver_index {s : State} {b : Byte} (h : s.st = .readIndex) (hb : IsIndex b) :
    deliver b s = .next { s with idx := b, pcount := 0, st := .readPayload } := deliverWith_index h hb

theorem deliver_restart {s : State} (h : s.st = .readIndex) : deliver Config.startByte s = .next s :=
  deliverWith_restart h

theorem deliver_abort {s : State} {b : Byte} (h : s.st = .readIndex) (hb : ¬ IsIndex b) (hb' : b ≠ Config.startByte) :
    deliver b s = .next { s with st := .seekStart } := deliverWith_abort h hb hb'

theorem deliver_data {s : State} (b : Byte) (h : s.st = .readPayload) (hn : s.pcount.val ≤ 18) :
    deliver b s = .next { s with payload := s.payload.set s.pcount b, pcount := s.pcount + 1 } := deliverWith_data b h hn

theorem deliver_last {s : State} (b : Byte) (h : s.st = .readPayload) (hn : s.pcount.val = 19) :
    deliver b s = if s.verdict b then s.lastCommit b else s.lastDrop b := deliverWith_last b h hn

theorem deliver_halted {s : State} (b : Byte) (h : s.st = .halted) : deliver b s = .next s := deliverWith_halted b h

/-- All a delivered byte can do (R92). -/
theorem deliver_cases {s t : State} {b : Byte} (h : deliver b s = .next t) :
    (s.st = .seekStart ∧ b = Config.startByte ∧ t = { s with st := .readIndex }) ∨
    (s.st = .seekStart ∧ b ≠ Config.startByte ∧ t = s) ∨
    (s.st = .readIndex ∧ IsIndex b ∧ t = { s with idx := b, pcount := 0, st := .readPayload }) ∨
    (s.st = .readIndex ∧ b = Config.startByte ∧ t = s) ∨
    (s.st = .readIndex ∧ ¬ IsIndex b ∧ b ≠ Config.startByte ∧ t = { s with st := .seekStart }) ∨
    (s.st = .readPayload ∧ s.pcount.val ≤ 18 ∧
      t = { s with payload := s.payload.set s.pcount b, pcount := s.pcount + 1 }) ∨
    (s.st = .readPayload ∧ s.pcount.val = 19 ∧ s.verdict b = true ∧ IsIndex s.idx ∧
      t = (s.commit s.idx (s.packet b)).endFrame b) ∨
    (s.st = .readPayload ∧ s.pcount.val = 19 ∧ s.verdict b = false ∧ t = s.drop.endFrame b) ∨
    (s.st = .halted ∧ t = s) := deliverWith_cases h

theorem deliver_completes {s : State} (h : s.st = .readPayload → IsIndex s.idx) (b : Byte) :
    ∃ t, deliver b s = .next t := deliverWith_completes h b

/-- Decoding an `RX` word in a state and performing the operation is delivering the byte. -/
theorem exec_classified (s : State) (b : Byte) :
    exec ((classify s.st s.pcount b).toInstr none b) s = deliver b s := by
  unfold deliver deliverWith
  cases classify s.st s.pcount b <;> rfl

theorem decode_rxWord (s : State) (b : Byte) :
    decode s.ctx (.event (rxWord b)) = .ok ((classify s.st s.pcount b).toInstr none b) := by
  simp [decode, decodeEvent, rxWord]

end Sys2Proof.Machine
end

