-- ==== Sys2Proof/Laws/PerInstr.lean ====
section
/-! SUPPORT. Statements made per instruction, as syntax: the event kind of an operation's encoding, and the role that
applies it. -/

namespace Sys2Proof.Laws.KindRole

open Sys2Proof Sys2Proof.Machine

/-- The role of an event kind (R162). -/
def roleOf : EventKind → Role
  | .rx => .producer
  | .rxfail => .producer
  | .close => .owner
  | .reset => .owner
  | .snapshot => .consumer
  | .speed => .consumer
  | .errcnt => .consumer

/-- An operation is encoded as an event word of its own kind (R68) or as a wire form, which is `RX` events (R76), and
its role is that kind's (R162). -/
def Statement (i : Instr) : Prop :=
  (match encode i with
    | .event w => wordKind w = some (eventKindOf i)
    | .sample _ => eventKindOf i = .rx
    | .frame _ => eventKindOf i = .rx
    | .other _ _ => False) ∧
  i.role = roleOf (eventKindOf i)

theorem ssStart : Statement .ssStart := ⟨rfl, rfl⟩
theorem ssSkip (b : Byte) : Statement (.ssSkip b) := ⟨wordKind_eventWord .rx b, rfl⟩
theorem riIndex (b : Byte) : Statement (.riIndex b) := ⟨wordKind_eventWord .rx b, rfl⟩
theorem riRestart : Statement .riRestart := ⟨rfl, rfl⟩
theorem riAbort (b : Byte) : Statement (.riAbort b) := ⟨wordKind_eventWord .rx b, rfl⟩
theorem rpData (b : Byte) : Statement (.rpData b) := ⟨wordKind_eventWord .rx b, rfl⟩
theorem rpLast (b : Byte) : Statement (.rpLast b) := ⟨wordKind_eventWord .rx b, rfl⟩
theorem commit (b : Byte) : Statement (.commit b) := ⟨wordKind_eventWord .rx b, rfl⟩
theorem drop (b : Byte) : Statement (.drop b) := ⟨wordKind_eventWord .rx b, rfl⟩
theorem haltIgnore (b : Byte) : Statement (.haltIgnore b) := ⟨wordKind_eventWord .rx b, rfl⟩
theorem rxfail : Statement .rxfail := ⟨rfl, rfl⟩
theorem close : Statement .close := ⟨rfl, rfl⟩
theorem reset : Statement .reset := ⟨rfl, rfl⟩
theorem snapshot : Statement .snapshot := ⟨rfl, rfl⟩
theorem speed : Statement .speed := ⟨rfl, rfl⟩
theorem errcnt : Statement .errcnt := ⟨rfl, rfl⟩
theorem frame (f : Frame) : Statement (.frame f) := ⟨rfl, rfl⟩
theorem sample (g : SampleGroup) : Statement (.sample g) := ⟨rfl, rfl⟩

end Sys2Proof.Laws.KindRole
end

