-- ==== Sys2Proof/Laws/Step.lean ====
section
/-! SUPPORT. `exec`, `step` and runs of bytes: once and for all what each can do, for the provers to cite instead of
unfolding them. -/

namespace Sys2Proof.Machine

open Sys2Proof

/-! ### Runs of bytes -/

/-- A relation that holds over every delivered byte, and is reflexive and transitive, holds over every run of bytes. -/
theorem deliverAll_ind (P : State → State → Prop) (h0 : ∀ s, P s s) (ht : ∀ s t u, P s t → P t u → P s u)
    (hd : ∀ s t b, deliver b s = .next t → P s t) : ∀ (bs : List Byte) (s t : State), deliverAll bs s = .next t → P s t
  | [], s, t, h => by cases h; exact h0 s
  | b :: bs, s, t, h => by
    rw [deliverAll_cons] at h
    obtain ⟨u, h1, h2⟩ := andThen_eq_next h
    exact ht _ _ _ (hd _ _ _ h1) (deliverAll_ind P h0 ht hd bs u t h2)

/-- In `Halted` bytes are ignored (R88). -/
theorem deliverAll_halted : ∀ (bs : List Byte) (s : State), s.st = .halted → deliverAll bs s = .next s
  | [], _, _ => rfl
  | b :: bs, s, h => by rw [deliverAll_cons, deliver_halted b h]; exact deliverAll_halted bs s h

/-- What is pending and what was returned play no part in a byte operation. -/
theorem deliver_framed (b : Byte) (s : State) (rest : List Code) (o : Option Output) :
    deliver b { s with pending := rest, out := o } =
      andThen (deliver b s) fun t => .next { t with pending := rest, out := o } := by
  simp only [deliver, deliverWith]
  cases classify s.st s.pcount b
  all_goals
    simp only [execSsStart, execSsSkip, execRiIndex, execRiRestart, execRiAbort, execRpData, execRpLastWith, execHaltIgnore,
      State.takeAnomaly]
  all_goals (try (cases hg : decide (s.st = .seekStart) <;> rfl))
  all_goals (try (cases hg : decide (s.st = .readIndex) <;> rfl))
  all_goals (try (cases hg : decide (s.st = .halted) <;> rfl))
  · cases hg : decide (s.st = .readPayload ∧ s.pcount.val ≤ 18) <;> rfl
  · cases hg : decide (s.st = .readPayload ∧ s.pcount.val = 19)
    · rfl
    · simp only [guarded_true]
      have : State.verdict { s with pending := rest, out := o } b = s.verdict b := rfl
      rw [this]
      cases hv : s.verdict b
      · rfl
      · simp only [if_true, State.lastCommit]
        by_cases hi : IsIndex s.idx
        · rw [if_pos hi, if_pos hi]; rfl
        · rw [if_neg hi, if_neg hi]; rfl

theorem succ_val {n : Fin 20} (h : n.val ≤ 18) : (n + 1).val = n.val + 1 := by
  rw [Fin.val_add]
  show (n.val + 1) % 20 = _
  omega

/-! ### One operation -/

/-- A commit's next state, and where it has one (log 8). -/
theorem lastCommit_eq_next {s t : State} {b : Byte} (h : s.lastCommit b = .next t) :
    IsIndex s.idx ∧ t = (s.commit s.idx (s.packet b)).endFrame b := by
  simp only [State.lastCommit] at h
  split at h <;> cases h
  exact ⟨by assumption, rfl⟩

/-- All an operation can do: it is no `RX` event (three lifecycle and three consumer operations, each one line), or a
wire form, or one of the byte operations with its effect. -/
theorem exec_cases {i : Instr} {s t : State} (h : exec i s = .next t) :
    (eventKindOf i ≠ .rx) ∨ (∃ bs, exec i s = deliverAll bs s ∧ ((∃ f, i = .frame f) ∨ (∃ g, i = .sample g))) ∨
    (i = .ssStart ∧ s.st = .seekStart ∧ t = { s with st := .readIndex }) ∨
    ((∃ b, i = .ssSkip b) ∧ s.st = .seekStart ∧ t = s) ∨
    (∃ b, i = .riIndex b ∧ s.st = .readIndex ∧ t = { s with idx := b, pcount := 0, st := .readPayload }) ∨
    (i = .riRestart ∧ s.st = .readIndex ∧ t = s) ∨
    ((∃ b, i = .riAbort b) ∧ s.st = .readIndex ∧ t = { s with st := .seekStart }) ∨
    (∃ b, i = .rpData b ∧ s.st = .readPayload ∧ s.pcount.val ≤ 18 ∧
      t = { s with payload := s.payload.set s.pcount b, pcount := s.pcount + 1 }) ∨
    (∃ b, (i = .rpLast b ∨ i = .commit b) ∧ s.st = .readPayload ∧ s.pcount.val = 19 ∧ s.verdict b = true ∧ IsIndex s.idx ∧
      t = (s.commit s.idx (s.packet b)).endFrame b) ∨
    (∃ b, (i = .rpLast b ∨ i = .drop b) ∧ s.st = .readPayload ∧ s.pcount.val = 19 ∧ s.verdict b = false ∧ t = s.drop.endFrame b) ∨
    ((∃ b, i = .haltIgnore b) ∧ s.st = .halted ∧ t = s) := by
  cases i <;> simp only [eventKindOf, ne_eq, not_true_eq_false, reduceCtorEq, not_false_eq_true, true_or, false_or]
  case frame f => exact .inl ⟨f.bytes, rfl, .inl ⟨f, rfl⟩⟩
  case sample g => exact .inl ⟨g.bytes, rfl, .inr ⟨g, rfl⟩⟩
  all_goals
    obtain ⟨h1, h2⟩ := guarded_eq_next h
    simp only [decide_eq_true_eq] at h1
    refine .inr ?_
  · cases h2; exact .inl ⟨trivial, h1, rfl⟩
  · cases h2; exact .inr (.inl ⟨⟨_, rfl⟩, h1, rfl⟩)
  · cases h2; exact .inr (.inr (.inl ⟨_, rfl, h1, rfl⟩))
  · cases h2; exact .inr (.inr (.inr (.inl ⟨trivial, h1, rfl⟩)))
  · cases h2; exact .inr (.inr (.inr (.inr (.inl ⟨⟨_, rfl⟩, h1, rfl⟩))))
  · cases h2; exact .inr (.inr (.inr (.inr (.inr (.inl ⟨_, rfl, h1.1, h1.2, rfl⟩)))))
  · rename_i b
    cases hv : s.verdict b
    · rw [hv, if_neg (by decide)] at h2
      cases h2
      exact .inr (.inr (.inr (.inr (.inr (.inr (.inr (.inl ⟨b, .inl rfl, h1.1, h1.2, hv, rfl⟩)))))))
    · rw [hv, if_pos rfl] at h2
      obtain ⟨h3, h4⟩ := lastCommit_eq_next h2
      exact .inr (.inr (.inr (.inr (.inr (.inr (.inl ⟨b, .inl rfl, h1.1, h1.2, hv, h3, h4⟩))))))
  · rename_i b
    obtain ⟨h3, h4⟩ := lastCommit_eq_next h2
    exact .inr (.inr (.inr (.inr (.inr (.inr (.inl ⟨b, rfl, h1.1, h1.2.1, h1.2.2, h3, h4⟩))))))
  · rename_i b
    cases h2
    exact .inr (.inr (.inr (.inr (.inr (.inr (.inr (.inl ⟨b, rfl, h1.1, h1.2.1, h1.2.2, rfl⟩)))))))
  · cases h2; exact .inr (.inr (.inr (.inr (.inr (.inr (.inr (.inr ⟨⟨_, rfl⟩, h1, rfl⟩)))))))

theorem exec_close_running {s : State} (h : s.st ≠ .halted) :
    exec .close s = .next { s with st := .halted, haltCause := .closed } := by
  simp [exec, execClose, h]

theorem exec_close_halted {s : State} (h : s.st = .halted) : exec .close s = .next s := by
  simp [exec, execClose, h]

theorem exec_rxfail_running {s : State} (h : s.st ≠ .halted) : exec .rxfail s = .next (s.takeAnomaly .ioFailure) := by
  simp [exec, execRxfail, h]

theorem exec_rxfail_halted {s : State} (h : s.st = .halted) : exec .rxfail s = .next s := by
  simp [exec, execRxfail, h]

theorem exec_frame_eq (f : Frame) (s : State) : exec (.frame f) s = deliverAll f.bytes s := rfl

theorem exec_sample_eq (g : SampleGroup) (s : State) : exec (.sample g) s = deliverAll g.bytes s := rfl

/-! ### One step -/

/-- The step on an `RX` word delivers its byte. -/
theorem step_rx (s : State) (b : Byte) (rest : List Code) (h : s.pending = .event (rxWord b) :: rest) :
    step s = deliver b (s.taken rest) := by
  simp only [step, h, decode_rxWord]
  exact exec_classified (s.taken rest) b

/-- All a step can do. -/
theorem step_cases {s t : State} (h : step s = .next t) :
    (s.pending = [] ∧ t = s) ∨ ∃ c rest i, s.pending = c :: rest ∧ decode s.ctx c = .ok i ∧ exec i (s.taken rest) = .next t := by
  unfold step at h
  split at h
  · rename_i hp; cases h; exact .inl ⟨hp, rfl⟩
  · rename_i c rest hp
    split at h
    · rename_i i hd; exact .inr ⟨c, rest, i, hp, hd, h⟩
    · cases h

/-- All a coded event can decode to. -/
theorem decode_kinds {s : State} {c : Code} {i : Instr} (h : decode s.ctx c = .ok i) :
    (∃ b, i = (classify s.st s.pcount b).toInstr none b) ∨ eventKindOf i ≠ .rx ∨ (∃ f, i = .frame f) ∨ (∃ g, i = .sample g) := by
  cases c with
  | event w =>
    simp only [decode, decodeEvent] at h
    split at h <;> cases h
    · exact .inl ⟨wordData w, rfl⟩
    all_goals exact .inr (.inl (by simp [eventKindOf]))
  | sample w =>
    simp only [decode] at h
    split at h <;> cases h
    exact .inr (.inr (.inr ⟨_, rfl⟩))
  | frame w =>
    simp only [decode] at h
    split at h <;> cases h
    exact .inr (.inr (.inl ⟨_, rfl⟩))
  | other n w => cases h

theorem steps_succ (n : Nat) (s : State) : steps (n + 1) s = andThen (step s) (steps n) := rfl

/-! ### The machine under any parameters -/

/-- Under the block's own parameters `execWith` is `exec`. -/
theorem execWith_block (i : Instr) (s : State) : execWith Config.block i s = exec i s := by
  cases i <;> rfl

/-- Decoding an `RX` word in a state and performing the operation is delivering the byte. -/
theorem execWith_classified (cfg : Config) (s : State) (b : Byte) :
    execWith cfg ((classify s.st s.pcount b).toInstr none b) s = deliverWith cfg b s := by
  unfold deliverWith
  cases classify s.st s.pcount b <;> rfl

/-- What is no `RX` event and no RESET depends on no parameter. -/
theorem execWith_eq_exec (cfg : Config) {i : Instr} (h : eventKindOf i ≠ .rx) (hr : i ≠ .reset) (s : State) :
    execWith cfg i s = exec i s := by
  cases i <;> first | rfl | exact absurd rfl h | exact absurd rfl hr

/-! ### The per-slot machine -/

theorem commitProgress_left (c : CommitProgress) : c.left = if c.slotsLeft = [] ∧ c.speedLeft = false then none else some c := rfl

theorem entryFor_cons (a k : Nat) (v : Half × Half) (got : List (Nat × (Half × Half))) :
    entryFor a ((k, v) :: got) = if k = a then some v else entryFor a got := rfl

end Sys2Proof.Machine
end

