-- ==== Sys2Proof/Tests/Slice0.lean ====
section
/-! SUPPORT. Tests: expected values are the vectors of spec/95_test_vectors.md or words written out from
spec/30_encoding.md, named in each comment. Then a witness for every statement that has hypotheses. -/

set_option maxRecDepth 4000

namespace Sys2Proof.Tests

open Sys2Proof Sys2Proof.Machine

/-! ### Helpers -/

/-- Bytes from numbers. -/
def bytesOf (l : List Nat) : List Byte := l.map (BitVec.ofNat 8)

/-- The state a result answers, for results that answer one. -/
def after (r : Result) : State :=
  match r with
  | .next s => s
  | .fault _ => State.reset
  | .refused _ => State.reset

/-- Whether a result is a next state. -/
def isNext (r : Result) : Bool :=
  match r with
  | .next _ => true
  | .fault _ => false
  | .refused _ => false

/-- Waiting for the index byte. -/
def awaiting : State := { State.reset with st := .readIndex }

/-- Reading a payload, `n` bytes of it staged. -/
def reading (n : Fin 20) : State := { State.reset with st := .readPayload, idx := 0xA0#8, pcount := n }

/-- The 22 bytes of F1, the completed example of the source (95_test_vectors.md). -/
def f1 : List Byte := bytesOf [0xFA, 0xA0, 0x00, 0x10, 0x34, 0x02, 0x05, 0, 0, 0, 0, 0, 0, 0, 0, 0, 0, 0, 0, 0, 0xE6, 0x11]

/-- F2: the highest index, framing values in the payload, reserved bits set. -/
def f2 : List Byte := bytesOf [0xFA, 0xF9, 0x00, 0x4B, 0xE8, 0x03, 0x10, 0x00, 0xFF, 0xFF, 0xFF, 0xFF, 0x00, 0x80, 0x34,
  0x12, 0xFA, 0x7F, 0xFA, 0xA0, 0x7B, 0x5A]

/-- F3. -/
def f3 : List Byte := bytesOf [0xFA, 0xA1, 1, 0, 1, 0, 2, 0, 3, 0, 4, 0, 5, 0, 6, 0, 7, 0, 8, 0, 0x7D, 0x79]

/-- F4: F1's index, other data. -/
def f4 : List Byte := bytesOf [0xFA, 0xA0, 0x80, 0x12, 0x10, 0x27, 0x64, 0x00, 0x00, 0x20, 0x01, 0x00, 0xFF, 0xFF, 0xFF,
  0xFF, 0x00, 0xC0, 0x00, 0x00, 0xF7, 0x17]

/-- F1 as an operand. -/
def frame1 : Frame :=
  { index := 0xA0#8, speed := 0x1000#16, g0 := ⟨0x34#8, 0x02#8, 0x05#8, 0x00#8⟩, g1 := ⟨0#8, 0#8, 0#8, 0#8⟩,
    g2 := ⟨0#8, 0#8, 0#8, 0#8⟩, g3 := ⟨0#8, 0#8, 0#8, 0#8⟩, checksum := 0x11E6#16 }

/-- F3 as an operand. -/
def frame3 : Frame :=
  { index := 0xA1#8, speed := 0x0001#16, g0 := ⟨1#8, 0#8, 2#8, 0#8⟩, g1 := ⟨3#8, 0#8, 4#8, 0#8⟩,
    g2 := ⟨5#8, 0#8, 6#8, 0#8⟩, g3 := ⟨7#8, 0#8, 8#8, 0#8⟩, checksum := 0x797D#16 }

/-- F4 as an operand. -/
def frame4 : Frame :=
  { index := 0xA0#8, speed := 0x1280#16, g0 := ⟨0x10#8, 0x27#8, 0x64#8, 0x00#8⟩, g1 := ⟨0x00#8, 0x20#8, 0x01#8, 0x00#8⟩,
    g2 := ⟨0xFF#8, 0xFF#8, 0xFF#8, 0xFF#8⟩, g3 := ⟨0x00#8, 0xC0#8, 0x00#8, 0x00#8⟩, checksum := 0x17F7#16 }

/-- F1 with its last byte changed (V-S11), which does not validate. -/
def badFrame1 : Frame := { frame1 with checksum := 0x10E6#16 }

/-- V-S10: 19 payload bytes of F1 staged; its last byte 0x11 will validate, any other will not. -/
def lastOfF1 : State :=
  { State.reset with
    st := .readPayload
    idx := 0xA0#8
    pcount := 19
    payload := #v[0x00#8, 0x10#8, 0x34#8, 0x02#8, 0x05#8, 0#8, 0#8, 0#8, 0#8, 0#8, 0#8, 0#8, 0#8, 0#8, 0#8, 0#8, 0#8,
      0#8, 0xE6#8, 0#8] }

/-- As `lastOfF1` under an index byte below the range, with that buffer's own checksum 0x767F (by R101 to R104). -/
def lastOfBadIndex : State :=
  { State.reset with
    st := .readPayload
    idx := 0x9F#8
    pcount := 19
    payload := #v[0#8, 0#8, 0#8, 0#8, 0#8, 0#8, 0#8, 0#8, 0#8, 0#8, 0#8, 0#8, 0#8, 0#8, 0#8, 0#8, 0#8, 0#8, 0x7F#8, 0#8] }

/-- Halted by a close. -/
def closedState : State := { State.reset with st := .halted, haltCause := .closed }

/-- Halted by a failure. -/
def failedState : State := { State.reset with st := .halted, haltCause := .ioFailure }

/-- A state with an empty table meets the invariant where its framer and its halt cause do. -/
theorem inv_of_empty (s : State) (h : s.slots = ⟨[]⟩) (hi : s.st = .readPayload → IsIndex s.idx)
    (hh : s.haltCause = .none ↔ s.st ≠ .halted) : s.Inv := by
  refine ⟨hi, ?_, ?_, ?_, hh⟩
  · rw [h]; decide
  · intro a v hv; rw [h] at hv; cases hv
  · intro m _ k _; simp [State.slotSet, h, Memory.read, readCells]

/-! ### Well-formedness: what the check refuses, and its boundaries (R66, R60) -/

theorem test_wf_ssSkip_refuses_start : (Instr.ssSkip 0xFA#8).wf = false := by decide
theorem test_wf_riIndex_refuses_below : (Instr.riIndex 0x9F#8).wf = false := by decide
theorem test_wf_riIndex_refuses_start : (Instr.riIndex 0xFA#8).wf = false := by decide
theorem test_wf_riAbort_refuses_index : (Instr.riAbort 0xA0#8).wf = false ∧ (Instr.riAbort 0xF9#8).wf = false := by decide
theorem test_wf_riAbort_refuses_start : (Instr.riAbort 0xFA#8).wf = false := by decide
theorem test_wf_frame_refuses_index : (Instr.frame { frame1 with index := 0xFA#8 }).wf = false := by decide
theorem test_wf_boundaries : (Instr.riIndex 0xA0#8).wf = true ∧ (Instr.riIndex 0xF9#8).wf = true ∧
    (Instr.riAbort 0x9F#8).wf = true ∧ (Instr.riAbort 0xFB#8).wf = true ∧ (Instr.ssSkip 0xF9#8).wf = true ∧
    (Instr.frame frame1).wf = true := by decide

/-! ### Decoding: a word of every row of the table, in the context of its `when` entry (R66, R68) -/

theorem test_decode_ssStart : decode ⟨.seekStart, 0, none⟩ (.event 0b00011111010#11) = .ok .ssStart := by rfl
theorem test_decode_ssSkip_rows :
    [0b00001010101#11, 0b00010110011#11, 0b00011010101#11, 0b00011100111#11, 0b00011110111#11, 0b00011111001#11,
      0b00011111011#11, 0b00011111100#11].map (fun w => decodeEvent ⟨.seekStart, 7, none⟩ w) =
    [.ok (.ssSkip 0x55#8), .ok (.ssSkip 0xB3#8), .ok (.ssSkip 0xD5#8), .ok (.ssSkip 0xE7#8), .ok (.ssSkip 0xF7#8),
      .ok (.ssSkip 0xF9#8), .ok (.ssSkip 0xFB#8), .ok (.ssSkip 0xFC#8)] := by rfl
theorem test_decode_riIndex_rows :
    [0b00010100000#11, 0b00011011111#11, 0b00011101010#11, 0b00011110000#11, 0b00011111001#11].map
      (fun w => decodeEvent ⟨.readIndex, 0, none⟩ w) =
    [.ok (.riIndex 0xA0#8), .ok (.riIndex 0xDF#8), .ok (.riIndex 0xEA#8), .ok (.riIndex 0xF0#8),
      .ok (.riIndex 0xF9#8)] := by rfl
theorem test_decode_riRestart : decode ⟨.readIndex, 0, none⟩ (.event 0b00011111010#11) = .ok .riRestart := by rfl
theorem test_decode_riAbort_rows :
    [0b00001111111#11, 0b00010011111#11, 0b00011111011#11, 0b00011111111#11].map
      (fun w => decodeEvent ⟨.readIndex, 0, none⟩ w) =
    [.ok (.riAbort 0x7F#8), .ok (.riAbort 0x9F#8), .ok (.riAbort 0xFB#8), .ok (.riAbort 0xFF#8)] := by rfl
theorem test_decode_rpData : decode ⟨.readPayload, 0, none⟩ (.event 0b00011111010#11) = .ok (.rpData 0xFA#8) := by rfl
theorem test_decode_rpLast : decode ⟨.readPayload, 19, none⟩ (.event 0b00000010001#11) = .ok (.rpLast 0x11#8) := by rfl
theorem test_decode_commit :
    decode ⟨.readPayload, 19, some true⟩ (.event 0b00000010001#11) = .ok (.commit 0x11#8) := by rfl
theorem test_decode_drop :
    decode ⟨.readPayload, 19, some false⟩ (.event 0b00000010000#11) = .ok (.drop 0x10#8) := by rfl
theorem test_decode_haltIgnore : decode ⟨.halted, 19, none⟩ (.event 0b00011111010#11) = .ok (.haltIgnore 0xFA#8) := by rfl
/-- V-E6. -/
theorem test_decode_other_kinds :
    [0x100#11, 0x200#11, 0x300#11, 0x400#11, 0x500#11, 0x600#11].map (fun w => decodeEvent ⟨.readPayload, 3, none⟩ w) =
    [.ok .rxfail, .ok .close, .ok .reset, .ok .snapshot, .ok .speed, .ok .errcnt] := by rfl
/-- R68: the data of kinds 1 to 6 are ignored; kind 7 does not exist. -/
theorem test_decode_ignored_data :
    decodeEvent ⟨.halted, 0, none⟩ 0b01110101010#11 = .ok .reset ∧
    decodeEvent ⟨.halted, 0, none⟩ 0b11100000000#11 = .error .noSuchKind := ⟨rfl, rfl⟩
/-- R61: F1's bytes as one number, the first byte lowest. -/
theorem test_decode_frame : decodeTableWord 176 0x11E60000000000000000000000000005023410_00A0FA = some (.frame frame1) := by
  decide
/-- R60: 22 bytes that do not begin 0xFA, or whose index byte is outside the range, are no frame. -/
theorem test_decode_not_a_frame :
    decodeTableWord 176 0xA0FB = none ∧ decodeTableWord 176 0xFAFA = none ∧ decodeTableWord 176 0x9FFA = none := by decide
theorem test_decode_sample : decodeTableWord 32 0x00050234 = some (.sample ⟨0x34#8, 0x02#8, 0x05#8, 0x00#8⟩) := by decide
theorem test_decode_no_format : decodeTableWord 64 0 = none ∧ decodeTableWord 16 0x800 = none := by decide
/-- V-E5, V-E6: what `encode` writes. -/
theorem test_encode : encode .ssStart = .event 0x0FA#11 ∧ encode .rxfail = .event 0x100#11 ∧
    encode .close = .event 0x200#11 ∧ encode .reset = .event 0x300#11 ∧ encode .snapshot = .event 0x400#11 ∧
    encode .speed = .event 0x500#11 ∧ encode .errcnt = .event 0x600#11 := by decide
/-- V-E1, V-E4: 90 index values, 165 aborting values. -/
theorem test_class_counts :
    ((List.range 256).filter fun n => byteClass (BitVec.ofNat 8 n) = .index).length = 90 ∧
    ((List.range 256).filter fun n => byteClass (BitVec.ofNat 8 n) = .low ∨ byteClass (BitVec.ofNat 8 n) = .high).length =
      165 := by decide
/-- V-E3. -/
theorem test_class_boundaries : [0x9F#8, 0xA0#8, 0xF9#8, 0xFA#8, 0xFB#8].map byteClass =
    [.low, .index, .index, .start, .high] := by decide

/-! ### The step on a word placed next -/

theorem test_step_first_word : (after (step (State.reset.withFetchWord 16 0x0FA))).st = .readIndex := by decide
theorem test_step_reset_word : isNext (step (State.reset.withFetchWord 16 0x300)) = true := by decide
theorem test_step_frame_word :
    (after (step (State.reset.withFetchWord 176 0x11E60000000000000000000000000005023410_00A0FA))).speedRaw = 0x1000#16 := by
  decide
theorem test_step_sample_word : (after (step ((reading 2).withFetchWord 32 0x00050234))).pcount = 6 := by decide
theorem test_step_kind_7 : step (State.reset.withFetchWord 16 0x700) = .refused .noSuchEvent := by rfl
theorem test_step_not_a_frame : step (State.reset.withFetchWord 176 0) = .refused .notACodedEvent := by rfl

/-! ### The byte operations (group V-S) -/

theorem test_ssStart : (after (exec .ssStart State.reset)).st = .readIndex := by decide
theorem test_ssSkip : after (exec (.ssSkip 0xA0#8) State.reset) = State.reset := by decide
theorem test_riIndex : after (exec (.riIndex 0xF9#8) { awaiting with pcount := 5 }) =
    { awaiting with st := .readPayload, idx := 0xF9#8, pcount := 0 } := by decide
theorem test_riRestart : after (exec .riRestart awaiting) = awaiting := by decide
theorem test_riAbort : (after (exec (.riAbort 0x9F#8) awaiting)).st = .seekStart := by decide
/-- V-S8. -/
theorem test_rpData : (after (exec (.rpData 0xFA#8) (reading 0))).payload[0] = 0xFA#8 ∧
    (after (exec (.rpData 0xFA#8) (reading 0))).pcount = 1 := by decide
/-- V-S9. -/
theorem test_rpData_last : (after (exec (.rpData 0xE6#8) (reading 18))).payload[18] = 0xE6#8 ∧
    (after (exec (.rpData 0xE6#8) (reading 18))).pcount = 19 := by decide
/-- V-S10. -/
theorem test_rpLast_commits : (after (exec (.rpLast 0x11#8) lastOfF1)).slots =
    ⟨[(0, ⟨564, 5⟩), (1, ⟨0, 0⟩), (2, ⟨0, 0⟩), (3, ⟨0, 0⟩)]⟩ ∧
    (after (exec (.rpLast 0x11#8) lastOfF1)).st = .seekStart := by decide
/-- V-S11. -/
theorem test_rpLast_drops : (after (exec (.rpLast 0x10#8) lastOfF1)).errCount = 1 ∧
    (after (exec (.rpLast 0x10#8) lastOfF1)).slots = ⟨[]⟩ := by decide
theorem test_commit : (after (exec (.commit 0x11#8) lastOfF1)).speedRaw = 0x1000#16 := by decide
theorem test_commit_needs_the_verdict : exec (.commit 0x10#8) lastOfF1 = .refused .notApplicable := by rfl
/-- V-W7. -/
theorem test_drop_saturates :
    (after (exec (.drop 0x10#8) { lastOfF1 with errCount := 0xFFFFFFFFFFFFFFFF#64 })).errCount = 0xFFFFFFFFFFFFFFFF#64 := by
  decide
theorem test_drop_needs_the_verdict : exec (.drop 0x11#8) lastOfF1 = .refused .notApplicable := by rfl
theorem test_haltIgnore : after (exec (.haltIgnore 0xFA#8) closedState) = closedState := by decide
theorem test_not_applicable : exec (.haltIgnore 0xFA#8) State.reset = .refused .notApplicable := by rfl

/-! ### Frames (reference frames, groups V-F and V-W) -/

/-- F2. -/
theorem test_frame2 : (after (deliverAll f2 State.reset)).slots =
    ⟨[(356, ⟨1000, 16⟩), (357, ⟨16383, 65535⟩), (358, ⟨0, 4660⟩), (359, ⟨16378, 41210⟩)]⟩ := by decide
/-- V-W4. -/
theorem test_frames_1_and_3 : (after (deliverAll (f1 ++ f3) State.reset)).slots =
    ⟨[(0, ⟨564, 5⟩), (1, ⟨0, 0⟩), (2, ⟨0, 0⟩), (3, ⟨0, 0⟩), (4, ⟨1, 2⟩), (5, ⟨3, 4⟩), (6, ⟨5, 6⟩), (7, ⟨7, 8⟩)]⟩ := by decide
/-- V-W2. -/
theorem test_frame_overwrites : (after (deliverAll (f1 ++ f4) State.reset)).slots =
    ⟨[(0, ⟨10000, 100⟩), (1, ⟨8192, 1⟩), (2, ⟨16383, 65535⟩), (3, ⟨0, 0⟩)]⟩ := by decide
/-- V-W3. -/
theorem test_bad_frame : (after (deliverAll (f1 ++ f1.set 4 0x35#8) State.reset)).errCount = 1 ∧
    (after (deliverAll (f1 ++ f1.set 4 0x35#8) State.reset)).slots = (after (deliverAll f1 State.reset)).slots := by decide
/-- V-C11, V-F7. -/
theorem test_checksum_bit_15 : (after (deliverAll (f1.set 21 0x91#8) State.reset)).errCount = 1 := by decide
/-- V-F9. -/
theorem test_undetected_double_error :
    (after (deliverAll ((f1.set 2 0x01#8).set 6 0x01#8) State.reset)).slots.read 0 = some ⟨564, 1⟩ := by decide
/-- P3's first bytes: abort, start, restart, and a frame accepted in `ReadIndex`. -/
theorem test_frame_in_readIndex :
    (after (deliverAll (bytesOf [0xFA, 0x00, 0xFA, 0xFA] ++ f3) State.reset)).slots.read 7 = some ⟨7, 8⟩ := by decide
/-- P4: a false sync swallows F1. -/
theorem test_false_sync : (after (deliverAll (bytesOf [0xFA, 0xA0] ++ f1) State.reset)).errCount = 1 ∧
    (after (deliverAll (bytesOf [0xFA, 0xA0] ++ f1) State.reset)).slots = ⟨[]⟩ := by decide
/-- P7, frame m = 64: `FRAME` computes the checksum bytes 77 43. -/
theorem test_mkFrame : (mkFrame 0xE0#8 0x4B00#16 ⟨0x00#8, 0x01#8, 0xE8#8, 0x04#8⟩ ⟨0x01#8, 0x01#8, 0xE9#8, 0x04#8⟩
    ⟨0x02#8, 0x01#8, 0xEA#8, 0x04#8⟩ ⟨0x03#8, 0x01#8, 0xEB#8, 0x04#8⟩).checksum = 0x4377#16 := by decide

/-! ### Checksum and extraction (groups V-C, V-D) -/

/-- V-C1, V-C2, V-C3, V-C4, V-C5, V-C6, V-C7, V-C8, V-C10. -/
theorem test_checksums :
    [f1.take 20, bytesOf [0xFA, 0xA0] ++ List.replicate 18 0#8, bytesOf [0xFA, 0xF9] ++ List.replicate 18 0xFF#8,
      List.replicate 20 0xFF#8, bytesOf [0xFA, 0xA0] ++ List.replicate 16 0#8 ++ bytesOf [0x7D, 0x09],
      bytesOf [0xFA, 0xA0] ++ List.replicate 16 0#8 ++ bytesOf [0x7C, 0x09], f2.take 20, f3.take 20,
      bytesOf [0xFA, 0xA0, 0x00, 0x10, 0x05, 0x00, 0x34, 0x02] ++ List.replicate 12 0#8].map cks =
    [0x11E6#15, 0x7683#15, 0x79E6#15, 0x03FE#15, 0x0000#15, 0x7FFF#15, 0x5A7B#15, 0x797D#15, 0x0625#15] := by decide
/-- R101 on F1 of the spec's vectors, FA A0 00 10 34 02 05 00: each pair's first byte is the low one. -/
theorem test_words_of_f1 : (wordsOf (f1.take 20)).take 4 = [0xA0FA#16, 0x1000#16, 0x0234#16, 0x0005#16] := by decide
/-- The accumulator of V-C7. -/
theorem test_accumulator : foldWords 32 (wordsOf (f2.take 20)) = 0x276D58E#32 := by decide
/-- V-D1 to V-D9. -/
theorem test_distances : [distance 0x34#8 0x02#8, distance 0x00#8 0xC0#8, distance 0x00#8 0x20#8, distance 0xFF#8 0xFF#8,
    distance 0x10#8 0x27#8, distance 0xFA#8 0x7F#8, distance 0x34#8 0xC2#8] =
    [564#16, 0#16, 8192#16, 16383#16, 10000#16, 16378#16, 564#16] := by decide
/-- V-D10 to V-D13. -/
theorem test_qualities : [quality 0x05#8 0x00#8, quality 0xFF#8 0xFF#8, quality 0x34#8 0x12#8, quality 0xFA#8 0xA0#8] =
    [5#16, 65535#16, 4660#16, 41210#16] := by decide
/-- V-D14 to V-D19. -/
theorem test_rpm_words : [0x1000#16, 0x0000#16, 0x0001#16, 0x4B00#16, 0x4B01#16, 0xFFFF#16].map rpmBinary64 =
    [0x4050000000000000#64, 0#64, 0x3F90000000000000#64, 0x4072C00000000000#64, 0x4072C04000000000#64,
      0x408FFFE000000000#64] := by decide
/-- V-D20 to V-D23. -/
theorem test_angles : [angleOf 0xA0#8 0, angleOf 0xA1#8 2, angleOf 0xE0#8 0, angleOf 0xF9#8 3] = [0, 6, 256, 359] := by
  decide

/-! ### Reads and lifecycle (groups V-R, V-L) -/

/-- V-R1. -/
theorem test_snapshot_empty :
    (after (exec .snapshot State.reset)).out = some (.snapshot (List.replicate 360 (0#16, 0#16))) := by rfl
/-- V-R4. -/
theorem test_snapshot : (after (andThen (deliverAll f1 State.reset) (exec .snapshot))).out =
    some (.snapshot ((564#16, 5#16) :: List.replicate 359 (0#16, 0#16))) := by rfl
/-- V-R2, V-R5. -/
theorem test_speed : (after (exec .speed State.reset)).out = some (.speed 0#16) ∧
    (after (andThen (deliverAll f1 State.reset) (exec .speed))).out = some (.speed 0x1000#16) := by decide
/-- V-R3, V-R8. -/
theorem test_errcnt : (after (exec .errcnt State.reset)).out = some (.errCount 0#64) ∧
    (after (andThen (deliverAll (f1.set 4 0x35#8) State.reset) (exec .errcnt))).out = some (.errCount 1#64) := by decide
/-- V-L3, V-L4. -/
theorem test_close : after (exec .close (reading 7)) = { reading 7 with st := .halted, haltCause := .closed } := by decide
/-- V-L7. -/
theorem test_close_keeps_the_first_cause : after (exec .close failedState) = failedState := by decide
/-- V-L5. -/
theorem test_rxfail : (after (exec .rxfail State.reset)).ioFail = true ∧ (after (exec .rxfail State.reset)).st = .halted := by
  decide
/-- V-L6. -/
theorem test_rxfail_keeps_the_first_cause : after (exec .rxfail closedState) = closedState := by decide
/-- V-L2, V-L8: only what the spec gives a value is looked at. -/
theorem test_reset : (after (andThen (deliverAll f1 State.reset) (exec .reset))).slots = ⟨[]⟩ ∧
    (after (exec .reset failedState)).ioFail = false ∧ (after (exec .reset failedState)).st = .seekStart := ⟨rfl, rfl, rfl⟩
/-- V-L9. -/
theorem test_halted_ignores_a_frame : after (deliverAll f3 closedState) = closedState := by decide
/-- P6 with the mask 0x1F of conflict C1: slot 1 reads (0, 1) and slot 2 (8191, 65535). -/
theorem test_parameter_mask :
    (after (deliverAllWith { distHiMask := 0x1F#8 } f4 State.reset)).slots.read 1 = some ⟨0#16, 1#16⟩ ∧
    (after (deliverAllWith { distHiMask := 0x1F#8 } f4 State.reset)).slots.read 2 = some ⟨8191#16, 65535#16⟩ := by decide
/-- V-D5's mask reaches the per-slot machine too. -/
theorem test_parameter_mask_per_slot :
    ((microStep { distHiMask := 0x1F#8, commitAtomicity := .slot } (.writeSlot 0)
      ⟨State.reset, [], some (CommitProgress.start 0xA0#8 (lastOfF1.payload.set 3 0x20#8))⟩).map
      fun t => t.block.slots.read 0) = some (some ⟨0x34#16, 5#16⟩) := by decide
/-- R103: F2 validates in 26 bits. -/
theorem test_parameter_acc_width : cks (f2.take 20) { accWidth := 26 } = 0x5A7B#15 := by decide
/-- R122 with a counter of 8 bits: it stays at 255. -/
theorem test_parameter_errcnt_width :
    (after (execWith { errcntWidth := 8 } (.rpLast 0x10#8) { lastOfF1 with errCount := 255#64 })).errCount = 255#64 ∧
    (after (execWith { errcntWidth := 8 } (.rpLast 0x10#8) { lastOfF1 with errCount := 254#64 })).errCount = 255#64 := by
  decide
/-- R133 with another `SPEED_RESET`. -/
theorem test_parameter_speed_reset : (after (execWith { speedReset := 7#16 } .reset closedState)).speedRaw = 7#16 ∧
    (State.resetWith { speedReset := 7#16 }).speedRaw = 7#16 := ⟨rfl, rfl⟩
/-- V-M3: under `slot` a snapshot may mix two packets, slot by slot; here slot 0 is read before and slot 1 after. -/
theorem test_per_slot_snapshot :
    ((microRun perSlot [.event (.event (rxWord 0x11#8)), .snapBegin 7, .snapRead 7 1, .writeSlot 0, .snapRead 7 0]
      ⟨lastOfF1, [], none⟩).bind fun s => (findSnap 7 s.snaps).map fun p => p.got) =
    some [(0, (564#16, 5#16)), (1, (0#16, 0#16))] := by decide

/-- R55, C3: `SNAP_ATOMICITY = slot` alone leaves the five writes of a commit to do. -/
theorem test_slot_alone_splits_the_commit :
    (microStep { snapAtomicity := .slot } (.event (.event (rxWord 0x11#8))) ⟨lastOfF1, [], none⟩).map
      (fun t => (t.block.slots.read 0, t.block.st, t.commit.map fun c => (c.slotsLeft, c.speedLeft))) =
    some (none, .seekStart, some ([0, 1, 2, 3], true)) := by decide

/-! ### Witnesses: a state and operands that meet a statement's hypotheses, at the ends of their ranges -/

theorem witness_DecodeOfEncode : (Instr.riIndex 0xA0#8).wf = true ∧ (Instr.riIndex 0xA0#8).applies ⟨.readIndex, 0, none⟩ = true ∧
    (Instr.riIndex 0xF9#8).wf = true ∧ (Instr.rpData 0xFF#8).applies ⟨.readPayload, 18, none⟩ = true ∧
    (Instr.commit 0x11#8).applies ⟨.readPayload, 19, some true⟩ = true ∧ (Instr.frame frame1).wf = true := by decide
theorem witness_Decoded : decode ⟨.readIndex, 0, none⟩ (.event (rxWord 0xF9#8)) = .ok (.riIndex 0xF9#8) ∧
    wordKind (rxWord 0xF9#8) = some .rx := ⟨rfl, by decide⟩
theorem witness_Decoded_kinds : decode State.reset.ctx (.event (rxWord 0xFA#8)) = .ok .ssStart ∧
    decode State.reset.ctx (.event 0b11011111111#11) = .ok .errcnt ∧
    (0b11111111111#11).extractLsb' 8 3 = 7#3 ∧ (0b11100000000#11).extractLsb' 8 3 = 7#3 := by decide
theorem witness_ByteClassificationTable : deliver 0x11#8 lastOfF1 = .next (after (deliver 0x11#8 lastOfF1)) ∧
    deliver 0xFA#8 closedState = .next closedState := ⟨rfl, rfl⟩
theorem witness_StepPerforms : decode State.reset.ctx (.event 0x0FA#11) = .ok .ssStart ∧
    (State.reset.withFetchWord 16 0x0FA).pending = .event 0x0FA#11 :: [] ∧
    decode State.reset.ctx (.event 0x700#11) = .error .noSuchKind ∧
    (State.reset.withFetchWord 16 0x700).pending = .event 0x700#11 :: [] ∧ State.reset.pending = [] :=
  ⟨rfl, rfl, rfl, rfl, rfl⟩
theorem witness_RxStep : IsIndex lastOfF1.idx ∧ lastOfF1.st = .readPayload ∧
    ({ lastOfF1 with pending := [.event (rxWord 0x11#8)] } : State).pending = .event (rxWord 0x11#8) :: [] := by decide
theorem witness_WireForms : f1 ≠ [] := by decide
theorem inv_reset : State.reset.Inv := inv_of_empty _ rfl (by decide) (by decide)
theorem inv_lastOfF1 : lastOfF1.Inv := inv_of_empty _ rfl (by decide) (by decide)
theorem inv_closed : closedState.Inv := inv_of_empty _ rfl (by decide) (by decide)
theorem witness_EveryStepKeeps : ∃ s t, State.Inv s ∧ step s = .next t :=
  ⟨{ lastOfF1 with pending := [.event (rxWord 0x11#8)] }, _, inv_of_empty _ rfl (by decide) (by decide), rfl⟩
theorem witness_EveryEvent : ∃ s : State, s.Inv ∧ s.headDecodes ∧ s.pending ≠ [] :=
  ⟨State.reset.withFetchWord 16 0x400, inv_of_empty _ rfl (by decide) (by decide),
    fun _ _ h => by cases h; exact ⟨.snapshot, rfl⟩, by decide⟩
theorem witness_AnyBytes : lastOfF1.Inv ∧ f3 ≠ [] := ⟨inv_lastOfF1, by decide⟩
theorem witness_OperationsComplete :
    lastOfF1.Inv ∧ (Instr.commit 0x11#8).wf = true ∧ (Instr.commit 0x11#8).applies ⟨lastOfF1.st, lastOfF1.pcount, some (lastOfF1.verdict 0x11#8)⟩ = true ∧
    (Instr.drop 0x11#8).applies ⟨lastOfF1.st, lastOfF1.pcount, some (lastOfF1.verdict 0x11#8)⟩ = false ∧
    (Instr.rpLast 0x11#8).applies ⟨lastOfF1.st, lastOfF1.pcount, none⟩ = true := ⟨inv_lastOfF1, rfl, by decide, by decide, by decide⟩
theorem witness_CommitOutside : lastOfBadIndex.st = .readPayload ∧ lastOfBadIndex.pcount.val = 19 ∧
    lastOfBadIndex.verdict 0x76#8 = true ∧ ¬ IsIndex lastOfBadIndex.idx := by decide
theorem witness_SsStart : State.reset.st = .seekStart ∧ deliver 0xFA#8 State.reset = .next awaiting ∧
    awaiting.st ≠ .seekStart := ⟨rfl, rfl, by decide⟩
theorem witness_SsSkip : State.reset.st = .seekStart ∧ 0xF9#8 ≠ 0xFA#8 ∧ 0xFB#8 ≠ 0xFA#8 ∧ 0xFA#8 ∉ bytesOf [0, 0xF9, 0xFB] := by
  decide
theorem witness_RiIndex : awaiting.st = .readIndex ∧ 0xA0#8 ≤ 0xA0#8 ∧ 0xA0#8 ≤ 0xF9#8 ∧ 0xF9#8 ≤ 0xF9#8 := by decide
theorem witness_RiRestart : awaiting.st = .readIndex := rfl
theorem witness_RiAbort : awaiting.st = .readIndex ∧ 0x9F#8 ≤ 0x9F#8 ∧ 0xFB#8 ≤ 0xFB#8 := by decide
theorem witness_RpData : (reading 0).st = .readPayload ∧ (reading 0).pcount.val ≤ 18 ∧ (reading 18).pcount.val ≤ 18 := by decide
theorem witness_PayloadBytesAreStaged : (reading 0).st = .readPayload ∧
    (reading 0).pcount.val + (List.replicate 19 0xFA#8).length ≤ 19 := by decide
theorem witness_RpLast : lastOfF1.st = .readPayload ∧ lastOfF1.pcount.val = 19 ∧ IsIndex lastOfF1.idx ∧
    (cks ([0xFA#8, lastOfF1.idx] ++ (lastOfF1.payload.set 19 0x11#8).toList.take 18)).setWidth 16 = le16 0xE6#8 0x11#8 ∧
    ¬ (cks ([0xFA#8, lastOfF1.idx] ++ (lastOfF1.payload.set 19 0x10#8).toList.take 18)).setWidth 16 = le16 0xE6#8 0x10#8 := by
  decide
theorem witness_Halted : closedState.st = .halted ∧ failedState.st = .halted := by decide
theorem witness_Commit : lastOfF1.st = .readPayload ∧ lastOfF1.pcount.val = 19 ∧ lastOfF1.verdict 0x11#8 = true ∧
    IsIndex lastOfF1.idx ∧ 4 / 4 ≠ lastOfF1.idx.toNat - 0xA0 := by decide
theorem witness_Drop : lastOfF1.st = .readPayload ∧ lastOfF1.pcount.val = 19 ∧ lastOfF1.verdict 0x10#8 = false ∧
    ({ lastOfF1 with errCount := 0xFFFFFFFFFFFFFFFF#64 } : State).verdict 0x10#8 = false := by decide
theorem witness_AValidFrame : State.reset.st = .seekStart ∧ awaiting.st = .readIndex ∧ IsIndex frame1.index ∧
    frameValidates frame1 = true ∧ 359 / 4 ≠ rotationIndex frame1.index := by decide
theorem witness_AFrameThatDoesNotValidate : State.reset.st = .seekStart ∧ awaiting.st = .readIndex ∧ IsIndex badFrame1.index ∧
    frameValidates badFrame1 = false := by decide
theorem witness_SampleBytes : (reading 2).st = .readPayload ∧ (reading 2).pcount.val = 2 + 4 * (0 : Fin 4).val ∧
    (reading 14).pcount.val = 2 + 4 * (3 : Fin 4).val := by decide
theorem witness_HuntingResumes : awaiting.Inv ∧ awaiting.st ≠ .halted ∧ (0xA0#8 :: List.replicate 20 0xFA#8).length = 21 ∧
    (0xA0#8 :: List.replicate 20 0xFA#8).head? ≠ some 0xFA#8 :=
  ⟨inv_of_empty _ rfl (by decide) (by decide), by decide, by decide, by decide⟩
theorem witness_PayloadBytesAreNeverFraming : (reading 0).Inv ∧ (reading 0).st = .readPayload ∧
    (reading 0).pcount.val + (List.replicate 20 0xFA#8).length = 20 ∧ (reading 0).pcount.val + (List.replicate 19 0xFA#8).length < 20 :=
  ⟨inv_of_empty _ rfl (by decide) (by decide), by decide, by decide, by decide⟩
theorem witness_TheLaterFrameWins : State.reset.st = .seekStart ∧ IsIndex frame1.index ∧ IsIndex frame3.index ∧
    IsIndex frame4.index ∧ frameValidates frame1 = true ∧ frameValidates frame3 = true ∧ frameValidates frame4 = true ∧
    frame1.index ≠ frame3.index ∧ 8 / 4 ≠ rotationIndex frame1.index ∧ 8 / 4 ≠ rotationIndex frame3.index := by decide

/-- One frame for every index byte, with the checksum it needs. -/
def allFrames : List Frame := (List.range 90).map fun m =>
  mkFrame (BitVec.ofNat 8 (0xA0 + m)) 0x4B00#16 ⟨0#8, 0#8, 0#8, 0#8⟩ ⟨0#8, 0#8, 0#8, 0#8⟩ ⟨0#8, 0#8, 0#8, 0#8⟩
    ⟨0#8, 0#8, 0#8, 0#8⟩

theorem witness_Coverage : State.reset.st = .seekStart ∧ (∀ a, State.reset.slots.read a = none) ∧
    (∀ f ∈ allFrames, IsIndex f.index ∧ frameValidates f = true) ∧ (allFrames.map fun f => f.index).Nodup ∧
    allFrames.length = 90 := ⟨rfl, fun _ => rfl, by decide, by decide, by decide⟩
theorem witness_Checksum_words : (wordsOf (f1.take 20)).length = 10 ∧ 26 ≤ 26 := by decide
theorem witness_AccumulatorWidth : 26 ≤ ({ accWidth := 26 } : Config).accWidth := by decide
theorem witness_ChecksumBit15 : (lastOfF1.payload.set 19 0x91#8)[19].getLsbD 7 = true ∧
    ({ frame1 with checksum := 0x91E6#16 } : Frame).checksum.getLsbD 15 = true := by decide
theorem witness_Angles : IsIndex 0xA0#8 ∧ IsIndex 0xF9#8 ∧ angleOf 0xF9#8 3 = 359 ∧ 359 < 360 := by decide
theorem witness_Consumers : Instr.snapshot.role = .consumer ∧ Instr.speed.role = .consumer ∧ Instr.errcnt.role = .consumer := by
  decide
theorem witness_ResetLeavesHalted : ∃ t, exec .reset failedState = .next t ∧ failedState.st = .halted ∧ t.st ≠ .halted :=
  ⟨_, rfl, rfl, by simp⟩
theorem witness_Close : State.reset.st ≠ .halted ∧ (reading 7).st ≠ .halted ∧ failedState.st = .halted := by decide
theorem witness_Rxfail : State.reset.st ≠ .halted ∧ awaiting.st ≠ .halted ∧ closedState.st = .halted := by decide
theorem witness_NothingChangesInHalted : exec .close failedState = .next failedState ∧ Instr.close ≠ .reset ∧
    failedState.st = .halted := ⟨rfl, by decide, rfl⟩
theorem witness_AccessTable : ∃ t, exec (.rpData 0xFA#8) (reading 0) = .next t := ⟨_, rfl⟩
theorem witness_AccessTable_st : isNext (exec (.rpData 0xFA#8) (reading 18)) = true ∧
    isNext (exec (.haltIgnore 0xFA#8) closedState) = true := by decide
theorem witness_OnlyReset : ∃ t, exec (.frame frame4) (after (deliverAll f1 State.reset)) = .next t ∧
    (after (deliverAll f1 State.reset)).slotSet 0 = true := ⟨_, rfl, by decide⟩
theorem witness_FramerDepends : lastOfF1.framer = ({ lastOfF1 with errCount := 7#64, speedRaw := 9#16 } : State).framer ∧
    isNext (exec (.rpLast 0x11#8) lastOfF1) = true ∧
    isNext (exec (.rpLast 0x11#8) { lastOfF1 with errCount := 7#64, speedRaw := 9#16 }) = true := by decide
theorem witness_Anomalies : raises (.ssSkip 0#8) State.reset = some .startNotFound ∧ isNext (exec (.ssSkip 0#8) State.reset) = true ∧
    raises (.riAbort 0#8) awaiting = some .indexInvalid ∧ isNext (exec (.riAbort 0#8) awaiting) = true ∧
    raises (.rpLast 0x10#8) lastOfF1 = some .checksumMismatch ∧ isNext (exec (.rpLast 0x10#8) lastOfF1) = true ∧
    raises (.drop 0x10#8) lastOfF1 = some .checksumMismatch ∧ isNext (exec (.drop 0x10#8) lastOfF1) = true ∧
    raises .rxfail awaiting = some .ioFailure ∧ isNext (exec .rxfail awaiting) = true := by decide
theorem witness_IoFail_rises : ∃ t, exec .rxfail State.reset = .next t ∧ State.reset.ioFail = false ∧ t.ioFail = true ∧
    (State.reset.haltCause = .none ↔ State.reset.st ≠ .halted) := ⟨_, rfl, rfl, rfl, by decide⟩
theorem witness_IoFail_falls : ∃ t, exec .reset failedState = .next t ∧ failedState.ioFail = true ∧ t.ioFail = false ∧
    (failedState.haltCause = .none ↔ failedState.st ≠ .halted) := ⟨_, rfl, rfl, rfl, by decide⟩
theorem witness_Coincident_read : Instr.speed.role = .consumer ∧
    isNext (andThen (deliver 0x11#8 lastOfF1) (exec .speed)) = true ∧
    isNext (andThen (exec .speed lastOfF1) (deliver 0x11#8)) = true := by decide
theorem witness_Coincident_reset : ∃ t, andThen (exec (.rpLast 0x11#8) lastOfF1) (exec .reset) = .next t ∧
    Instr.rpLast 0x11#8 ≠ .reset := ⟨_, rfl, by decide⟩
theorem witness_Coincident_close_read : Instr.snapshot.role = .consumer ∧
    isNext (andThen (exec .close State.reset) (exec .errcnt)) = true ∧
    isNext (andThen (exec .errcnt State.reset) (exec .rxfail)) = true := by decide
theorem witness_Parameters : ({ distHiMask := 0x1F#8, accWidth := 26, errcntWidth := 8 } : Config).wf ∧
    ({ errcntWidth := 64 } : Config).wf ∧ ({ distHiMask := 0x1F#8 } : Config).commitAtomicity = .packet ∧
    ({ distHiMask := 0x1F#8 } : Config).snapAtomicity = .table ∧
    lastOfF1.verdict 0x11#8 { distHiMask := 0x1F#8, accWidth := 26 } = true ∧
    lastOfF1.verdict 0x10#8 { accWidth := 26, errcntWidth := 8 } = false := by decide
theorem witness_TablePacket : decode lastOfF1.ctx (.event (rxWord 0x11#8)) = .ok (.rpLast 0x11#8) ∧
    (∀ c, MicroEvent.writeSpeed ≠ .event c) := ⟨rfl, fun _ h => by cases h⟩
theorem witness_FiveWrites : perSlot.snapAtomicity = .slot ∧ perSlot.commitAtomicity = .packet ∧
    ({ commitAtomicity := .slot } : Config).commitAtomicity = .slot ∧ lastOfF1.verdict 0x11#8 perSlot = true ∧ lastOfF1.st = .readPayload ∧ lastOfF1.pcount.val = 19 ∧ lastOfF1.verdict 0x11#8 = true ∧
    IsIndex lastOfF1.idx ∧ [MicroEvent.writeSpeed, .writeSlot 3, .writeSlot 2, .writeSlot 1, .writeSlot 0].Perm
      [.writeSlot 0, .writeSlot 1, .writeSlot 2, .writeSlot 3, .writeSpeed] := by decide
theorem witness_Reads : perSlot.snapAtomicity = .slot ∧ ((List.range 360).reverse).Perm (List.range 360) :=
  ⟨rfl, List.reverse_perm _⟩
theorem witness_NoStepTears : ∃ t, microStep perSlot (.writeSlot 2)
      ⟨State.reset, [], some (CommitProgress.start 0xA0#8 lastOfF1.payload)⟩ = some t ∧
    (∀ c f g, MicroEvent.writeSlot 2 = .event c → decode State.reset.ctx c ≠ .ok (.frame f) ∧
      decode State.reset.ctx c ≠ .ok (.sample g)) := ⟨_, rfl, fun _ _ _ h => by cases h⟩
theorem witness_NoStepTears_whole : ∃ t, microStep Config.block (.event (.event (rxWord 0x11#8))) ⟨lastOfF1, [], none⟩ = some t ∧
    t.block.slots.read 0 = some ⟨564#16, 5#16⟩ := ⟨_, rfl, by decide⟩
theorem witness_NoStepTears_read : ∃ t, microStep perSlot (.snapRead 0 359) ⟨State.reset, [⟨0, []⟩], none⟩ = some t :=
  ⟨_, rfl⟩

end Sys2Proof.Tests
end

section
/-! The step and the decided parameters of R5. First what `step` does in each of its three cases, then the machine of
R55 at the atomicities packet and table, then where each other parameter shows in what an operation leaves. -/

namespace Sys2Proof.Machine

open Sys2Proof

/-! ### The step, case by case -/

theorem step_of_decode_ok {s : State} {c : Code} {rest : List Code} {i : Instr} (hp : s.pending = c :: rest)
    (hd : decode s.ctx c = .ok i) : step s = exec i (s.taken rest) := by
  simp [step, hp, hd]

theorem step_of_decode_error {s : State} {c : Code} {rest : List Code} {e : DecodeError} (hp : s.pending = c :: rest)
    (hd : decode s.ctx c = .error e) : step s = .refused (refusalOf e) := by
  simp [step, hp, hd]

theorem step_of_pending_nil {s : State} (hp : s.pending = []) : step s = .next s := by
  simp [step, hp]

/-- Settles O6: the three clauses are the three branches of `step`. -/
theorem stepPerformsTheDecodedEvent : Obligations.StepPerformsTheDecodedEvent :=
  ⟨fun _ _ _ _ => step_of_decode_ok, fun _ _ _ => step_of_decode_error, fun _ => step_of_pending_nil⟩

/-! ### The spec's own parameters -/

theorem stepWith_block (s : State) : stepWith Config.block s = step s := by
  cases hp : s.pending with
  | nil => simp [stepWith, step, hp]
  | cons c rest =>
    cases hd : decode s.ctx c with
    | ok i => simp [stepWith, step, hp, hd, execWith_block]
    | error e => simp [stepWith, step, hp, hd]

theorem resetWith_block : State.resetWith Config.block = State.reset := rfl

/-! ### The atomicities packet and table -/

theorem not_splitsSnapshot {cfg : Config} (ht : cfg.snapAtomicity = .table) : ¬ SplitsSnapshot cfg := by
  simp [ht]

theorem not_splitsCommit {cfg : Config} (hp : cfg.commitAtomicity = .packet) (ht : cfg.snapAtomicity = .table) :
    ¬ SplitsCommit cfg := by
  simp [hp, ht]

/-- Where neither a snapshot nor a commit is split, every operation is one step of the block. Only SNAPSHOT, RP.LAST and
the two wire forms ask whether they are split. -/
theorem wholeEvent_of_not_split {cfg : Config} (hs : ¬ SplitsSnapshot cfg) (hc : ¬ SplitsCommit cfg) (i : Instr)
    (s : Conforming) :
    wholeEvent cfg i s = (nextState (execWith cfg i s.block)).map fun t => { s with block := t } := by
  cases i with
  | snapshot => exact if_neg hs
  | rpLast b => exact if_neg fun h => hc h.1
  | frame f => exact if_neg hc
  | sample g => exact if_neg hc
  | _ => rfl

/-- With no commit under way no role is held back. -/
theorem microStep_event_of_idle {cfg : Config} {c : Code} {i : Instr} {s : Conforming} (hs : s.commit = none)
    (hd : decode s.block.ctx c = .ok i) : microStep cfg (.event c) s = wholeEvent cfg i s := by
  simp [microStep, hd, hs]

/-- Single-slot reads need a snapshot begun, which `table` does not allow, and single-slot writes a commit under way. -/
theorem microStep_eq_none_of_idle {cfg : Config} (hs : ¬ SplitsSnapshot cfg) {e : MicroEvent} (he : ∀ c, e ≠ .event c)
    (s : State) : microStep cfg e ⟨s, [], none⟩ = none := by
  cases e with
  | event c => exact absurd rfl (he c)
  | snapBegin c => exact if_neg fun h => hs h.1
  | snapRead c a => rfl
  | snapEnd c => rfl
  | writeSlot k => rfl
  | writeSpeed => rfl

/-! ### The other parameters -/

theorem execWith_rpLast_of_last {s : State} (cfg : Config) (b : Byte) (hst : s.st = .readPayload) (hn : s.pcount.val = 19) :
    execWith cfg (.rpLast b) s = if s.verdict b cfg then s.lastCommit b cfg else s.lastDrop b cfg := by
  simp [execWith, execRpLastWith, hst, hn]

theorem packet_getElem (s : State) (b : Byte) {j : Nat} (hj : j < 19) : (s.packet b)[j] = s.payload[j] :=
  Vector.getElem_set_ne (by decide) (by omega) (by omega)

/-- The last byte is a checksum byte, so a packet's samples are those of the bytes staged before it. -/
theorem sampleOf_packet (cfg : Config) (s : State) (b : Byte) (k : Fin 4) :
    sampleOf (s.packet b) k cfg =
      { dist := distanceWith cfg.distHiMask s.payload[2 + 4 * k.val] s.payload[3 + 4 * k.val],
        qual := quality s.payload[4 + 4 * k.val] s.payload[5 + 4 * k.val] } := by
  have hk := k.isLt
  simp (disch := omega) only [sampleOf, groupOf, decodedGroup, packet_getElem]

theorem errCountMax_toNat {cfg : Config} (hw : cfg.errcntWidth ≤ 64) :
    (errCountMax cfg).toNat = 2 ^ cfg.errcntWidth - 1 := by
  have hle : 2 ^ cfg.errcntWidth ≤ 2 ^ 64 := Nat.pow_le_pow_right (by decide) hw
  have hpos : 0 < 2 ^ cfg.errcntWidth := Nat.two_pow_pos _
  rw [errCountMax, BitVec.toNat_ofNat, Nat.mod_eq_of_lt (by omega)]

theorem saturatingSucc_eq {cfg : Config} (hw : cfg.errcntWidth ≤ 64) (n : Count) :
    saturatingSucc n cfg = if n.toNat = 2 ^ cfg.errcntWidth - 1 then n else n + 1 := by
  simp only [saturatingSucc, ← errCountMax_toNat hw, BitVec.toNat_inj]

/-- Settles O57: at packet and table no operation is split, so the machine of R55 is `execWith`; the commit's slots, the
drop's count and the reset's speed each show their parameter. -/
theorem tablePacketParametersGiveTheBlock : Obligations.TablePacketParametersGiveTheBlock := by
  refine ⟨?wholeEvents, ?noSingleSlotStep, ?distHiMask, ?errcntWidth, ?speedReset, ?specValues⟩
  case wholeEvents =>
    intro cfg c i s hp ht hd
    rw [microStep_event_of_idle rfl hd, wholeEvent_of_not_split (not_splitsSnapshot ht) (not_splitsCommit hp ht)]
  case noSingleSlotStep =>
    intro cfg e s ht he
    exact microStep_eq_none_of_idle (not_splitsSnapshot ht) he s
  case distHiMask =>
    intro cfg s b hst hn hv hi
    refine ⟨_, by rw [execWith_rpLast_of_last cfg b hst hn, if_pos hv, lastCommit_next b hi], fun k => ?_⟩
    rw [endFrame_slots, commit_slots, read_commitSlots_own, sampleOf_packet]
  case errcntWidth =>
    intro cfg s b hwf hst hn hv
    refine ⟨_, by rw [execWith_rpLast_of_last cfg b hst hn, if_neg (by simp [hv]), lastDrop_next], ?_⟩
    rw [endFrame_errCount, drop_errCount, saturatingSucc_eq hwf.2]
  case speedReset =>
    intro cfg s
    exact ⟨rfl, _, rfl, rfl⟩
  case specValues =>
    intro i s
    exact ⟨execWith_block i s, stepWith_block s, resetWith_block⟩

end Sys2Proof.Machine
end

section
/-! The state: what each operation leaves in it (R34), what only RESET takes back (R26, R28, R30), the invariant of R33,
and the staging of payload bytes (R86). A claim about an operation is a case analysis of `Effect`; for the bytes of a wire
form it is one of `deliver_cases`, carried over the run by `deliverAll_ind`. -/

namespace Sys2Proof.Machine

open Sys2Proof

/-! ### The effect of every operation -/

/-- What an operation that completes can leave, one case per operation and outcome: the byte operations of `exec_cases`
with the lifecycle and consumer operations, as a relation so that a case analysis names the operation. -/
inductive Effect (s : State) : Instr → State → Prop
  | ssStart (hst : s.st = .seekStart) : Effect s .ssStart { s with st := .readIndex }
  | ssSkip (b : Byte) (hst : s.st = .seekStart) : Effect s (.ssSkip b) s
  | riIndex (b : Byte) (hst : s.st = .readIndex) :
      Effect s (.riIndex b) { s with idx := b, pcount := 0, st := .readPayload }
  | riRestart (hst : s.st = .readIndex) : Effect s .riRestart s
  | riAbort (b : Byte) (hst : s.st = .readIndex) : Effect s (.riAbort b) { s with st := .seekStart }
  | rpData (b : Byte) (hst : s.st = .readPayload) (hn : s.pcount.val ≤ 18) :
      Effect s (.rpData b) { s with payload := s.payload.set s.pcount b, pcount := s.pcount + 1 }
  | rpLastCommit (b : Byte) (hst : s.st = .readPayload) (hn : s.pcount.val = 19) (hv : s.verdict b = true)
      (hidx : IsIndex s.idx) : Effect s (.rpLast b) ((s.commit s.idx (s.packet b)).endFrame b)
  | commit (b : Byte) (hst : s.st = .readPayload) (hn : s.pcount.val = 19) (hv : s.verdict b = true)
      (hidx : IsIndex s.idx) : Effect s (.commit b) ((s.commit s.idx (s.packet b)).endFrame b)
  | rpLastDrop (b : Byte) (hst : s.st = .readPayload) (hn : s.pcount.val = 19) (hv : s.verdict b = false) :
      Effect s (.rpLast b) (s.drop.endFrame b)
  | drop (b : Byte) (hst : s.st = .readPayload) (hn : s.pcount.val = 19) (hv : s.verdict b = false) :
      Effect s (.drop b) (s.drop.endFrame b)
  | haltIgnore (b : Byte) (hst : s.st = .halted) : Effect s (.haltIgnore b) s
  | rxfailRunning (hst : s.st ≠ .halted) : Effect s .rxfail (s.takeAnomaly .ioFailure)
  | rxfailHalted (hst : s.st = .halted) : Effect s .rxfail s
  | closeRunning (hst : s.st ≠ .halted) : Effect s .close { s with st := .halted, haltCause := .closed }
  | closeHalted (hst : s.st = .halted) : Effect s .close s
  | reset : Effect s .reset
      { s with st := .seekStart, slots := Memory.cleared, speedRaw := Config.block.speedReset, errCount := 0,
               haltCause := .none, idx := Config.freeIdx s.draws, pcount := Config.freePcount s.draws,
               payload := Config.freePayload s.draws, draws := s.draws + 1 }
  | snapshot : Effect s .snapshot { s with out := some (.snapshot (snapshotOf s.slots)) }
  | speed : Effect s .speed { s with out := some (.speed s.speedRaw) }
  | errcnt : Effect s .errcnt { s with out := some (.errCount s.errCount) }
  | frame (f : Frame) {t : State} (hbs : deliverAll f.bytes s = .next t) : Effect s (.frame f) t
  | sample (g : SampleGroup) {t : State} (hbs : deliverAll g.bytes s = .next t) : Effect s (.sample g) t

theorem effect_of_not_rx {i : Instr} {s t : State} (hk : eventKindOf i ≠ .rx) (h : exec i s = .next t) :
    Effect s i t := by
  cases i with
  | rxfail =>
    by_cases hst : s.st = .halted
    · rw [exec_rxfail_halted hst] at h; cases h; exact .rxfailHalted hst
    · rw [exec_rxfail_running hst] at h; cases h; exact .rxfailRunning hst
  | close =>
    by_cases hst : s.st = .halted
    · rw [exec_close_halted hst] at h; cases h; exact .closeHalted hst
    · rw [exec_close_running hst] at h; cases h; exact .closeRunning hst
  | reset => cases h; exact .reset
  | snapshot => cases h; exact .snapshot
  | speed => cases h; exact .speed
  | errcnt => cases h; exact .errcnt
  | _ => exact absurd rfl hk

theorem effect_of_exec {i : Instr} {s t : State} (h : exec i s = .next t) : Effect s i t := by
  rcases exec_cases h with hk | ⟨_, -, ⟨f, rfl⟩ | ⟨g, rfl⟩⟩ | ⟨rfl, hst, rfl⟩ | ⟨⟨b, rfl⟩, hst, rfl⟩ | ⟨b, rfl, hst, rfl⟩ |
    ⟨rfl, hst, rfl⟩ | ⟨⟨b, rfl⟩, hst, rfl⟩ | ⟨b, rfl, hst, hn, rfl⟩ | ⟨b, rfl | rfl, hst, hn, hv, hidx, rfl⟩ |
    ⟨b, rfl | rfl, hst, hn, hv, rfl⟩ | ⟨⟨b, rfl⟩, hst, rfl⟩
  · exact effect_of_not_rx hk h
  · exact .frame f h
  · exact .sample g h
  · exact .ssStart hst
  · exact .ssSkip b hst
  · exact .riIndex b hst
  · exact .riRestart hst
  · exact .riAbort b hst
  · exact .rpData b hst hn
  · exact .rpLastCommit b hst hn hv hidx
  · exact .commit b hst hn hv hidx
  · exact .rpLastDrop b hst hn hv
  · exact .drop b hst hn hv
  · exact .haltIgnore b hst

/-! ### The table after a commit -/

theorem exists_angleOf {idx : Byte} {a : Nat} (h : a / 4 = rotationIndex idx) : ∃ k : Fin 4, a = angleOf idx k :=
  ⟨⟨a % 4, by omega⟩, by simp only [angleOf]; omega⟩

/-- A commit sets the slots of its own group and leaves every other slot set or unset as it was (R120). -/
theorem isSome_read_commitSlots {cfg : Config} (m : Memory) (idx : Byte) (p : Vector Byte 20) (a : Nat) :
    ((commitSlots m idx p cfg).read a).isSome = (decide (a / 4 = rotationIndex idx) || (m.read a).isSome) := by
  by_cases h : a / 4 = rotationIndex idx
  · obtain ⟨k, rfl⟩ := exists_angleOf h
    simp [read_commitSlots_own, angle_div]
  · have hother : ∀ k : Fin 4, a ≠ angleOf idx k := fun k e => h (e ▸ angle_div idx k)
    simp [read_commitSlots_other m idx p a hother, h]

theorem sampleOf_dist_le (p : Vector Byte 20) (k : Fin 4) : (sampleOf p k).dist ≤ 0x3FFF#16 := by
  have hle (x0 x1 : Byte) : distance x0 x1 ≤ 0x3FFF#16 := by
    have h0 := x0.isLt
    rw [BitVec.le_def, distance_toNat, BitVec.toNat_ofNat]
    omega
  exact hle _ _

/-! ### Only RESET unsets a slot or lowers the count -/

/-- Every slot that is set stays set, and the error count does not fall (R26, R28, R124). -/
def Grows (s t : State) : Prop := (∀ a, s.slotSet a = true → t.slotSet a = true) ∧ s.errCount ≤ t.errCount

theorem Grows.refl (s : State) : Grows s s := ⟨fun _ h => h, BitVec.le_refl _⟩

theorem Grows.trans (s t u : State) (hst : Grows s t) (htu : Grows t u) : Grows s u :=
  ⟨fun a h => htu.1 a (hst.1 a h), BitVec.le_trans hst.2 htu.2⟩

theorem le_saturatingSucc (n : Count) : n ≤ saturatingSucc n := by
  have hn := n.isLt
  rw [saturatingSucc_eq (by decide)]
  split
  · exact BitVec.le_refl n
  · next hne =>
    have hmax : n.toNat ≠ 2 ^ 64 - 1 := hne
    have hsucc : (n + 1).toNat = (n.toNat + 1) % 2 ^ 64 := BitVec.toNat_add n 1
    rw [BitVec.le_def, hsucc]
    omega

theorem grows_commit (s : State) (b : Byte) : Grows s ((s.commit s.idx (s.packet b)).endFrame b) :=
  ⟨fun a (h : (s.slots.read a).isSome = true) => by simp [State.slotSet, isSome_read_commitSlots, h], BitVec.le_refl _⟩

theorem grows_drop (s : State) (b : Byte) : Grows s (s.drop.endFrame b) := ⟨fun _ h => h, le_saturatingSucc s.errCount⟩

theorem grows_of_deliver (s t : State) (b : Byte) (h : deliver b s = .next t) : Grows s t := by
  rcases deliver_cases h with ⟨-, -, rfl⟩ | ⟨-, -, rfl⟩ | ⟨-, -, rfl⟩ | ⟨-, -, rfl⟩ | ⟨-, -, -, rfl⟩ | ⟨-, -, rfl⟩ |
    ⟨-, -, -, -, rfl⟩ | ⟨-, -, -, rfl⟩ | ⟨-, rfl⟩
  · exact Grows.refl s
  · exact Grows.refl t
  · exact Grows.refl s
  · exact Grows.refl t
  · exact Grows.refl s
  · exact Grows.refl s
  · exact grows_commit s b
  · exact grows_drop s b
  · exact Grows.refl t

theorem grows_of_deliverAll {bs : List Byte} {s t : State} (h : deliverAll bs s = .next t) : Grows s t :=
  deliverAll_ind Grows Grows.refl Grows.trans grows_of_deliver bs s t h

/-- Settles O52: only the end of a frame touches a slot or the count, and it sets slots or adds one. -/
theorem onlyResetUnsetsOrLowers : Obligations.OnlyResetUnsetsOrLowers := by
  intro i s t h hreset
  show Grows s t
  cases effect_of_exec h with
  | reset => exact absurd rfl hreset
  | rpLastCommit b | commit b => exact grows_commit s b
  | rpLastDrop b | drop b => exact grows_drop s b
  | frame _ hbs | sample _ hbs => exact grows_of_deliverAll hbs
  | _ => exact Grows.refl s

/-! ### The access table -/

/-- What no byte changes: the events to come, the returned value and the halt cause. -/
structure SameOutside (s t : State) : Prop where
  pending : t.pending = s.pending
  out : t.out = s.out
  haltCause : t.haltCause = s.haltCause

theorem SameOutside.refl (s : State) : SameOutside s s := ⟨rfl, rfl, rfl⟩

theorem SameOutside.trans (s t u : State) (hst : SameOutside s t) (htu : SameOutside t u) : SameOutside s u :=
  ⟨htu.pending.trans hst.pending, htu.out.trans hst.out, htu.haltCause.trans hst.haltCause⟩

theorem sameOutside_of_deliver (s t : State) (b : Byte) (h : deliver b s = .next t) : SameOutside s t := by
  rcases deliver_cases h with ⟨-, -, rfl⟩ | ⟨-, -, rfl⟩ | ⟨-, -, rfl⟩ | ⟨-, -, rfl⟩ | ⟨-, -, -, rfl⟩ | ⟨-, -, rfl⟩ |
    ⟨-, -, -, -, rfl⟩ | ⟨-, -, -, rfl⟩ | ⟨-, rfl⟩
  all_goals exact ⟨rfl, rfl, rfl⟩

theorem sameOutside_of_deliverAll {bs : List Byte} {s t : State} (h : deliverAll bs s = .next t) : SameOutside s t :=
  deliverAll_ind SameOutside SameOutside.refl SameOutside.trans sameOutside_of_deliver bs s t h

/-- Settles O51: each case of `Effect` writes its state out as an update, so an item is either not in the update or its
column excuses the operation; the bytes of a wire form are excused in every column but three. -/
theorem accessTableOfWrites : Obligations.AccessTableOfWrites := by
  intro i s t h
  cases effect_of_exec h with
  | frame _ hbs | sample _ hbs =>
    obtain ⟨hpending, hout, hcause⟩ := sameOutside_of_deliverAll hbs
    simp [hpending, hout, hcause, Instr.role]
  | _ => simp [Instr.role]

/-! ### The failure output -/

/-- An operation that leaves the halt cause moves `io_fail` in neither direction (R30). -/
theorem ioFail_moves_of_haltCause_eq {s t : State} (i : Instr) (h : t.haltCause = s.haltCause) :
    (s.ioFail = false → t.ioFail = true → i = .rxfail) ∧ (s.ioFail = true → t.ioFail = false → i = .reset) := by
  have heq : t.ioFail = s.ioFail := by simp [State.ioFail, h]
  simp +contextual [heq]

/-- Settles O55: a close finds no cause in a running block and leaves `Closed`, so it moves nothing. -/
theorem ioFailRisesByRxfailFallsByReset : Obligations.IoFailRisesByRxfailFallsByReset := by
  intro i s t hcause h
  cases effect_of_exec h with
  | rxfailRunning hst => exact ⟨fun _ _ => rfl, fun _ hfall => (nomatch hfall)⟩
  | closeRunning hst =>
    have hs : s.ioFail = false := by simp [State.ioFail, hcause.mpr hst]
    exact ⟨fun _ hrise => (nomatch hrise), fun hs' _ => absurd (hs.symm.trans hs') Bool.false_ne_true⟩
  | reset => exact ⟨fun _ hrise => (nomatch hrise), fun _ _ => rfl⟩
  | frame _ hbs | sample _ hbs => exact ioFail_moves_of_haltCause_eq _ (sameOutside_of_deliverAll hbs).haltCause
  | _ => exact ioFail_moves_of_haltCause_eq _ rfl

/-! ### The invariant -/

/-- What the invariant says of the table alone: the canonical form, R33.3 and R33.5. -/
structure TableOk (m : Memory) : Prop where
  wf : m.wf
  dist : ∀ a v, m.read a = some v → v.dist ≤ 0x3FFF#16
  groups : ∀ n < 90, ∀ k < 4, (m.read (4 * n + k)).isSome = (m.read (4 * n)).isSome

theorem inv_iff (s : State) :
    s.Inv ↔ TableOk s.slots ∧ (s.st = .readPayload → IsIndex s.idx) ∧ (s.haltCause = .none ↔ s.st ≠ .halted) :=
  ⟨fun h => ⟨⟨h.tableWf, h.distOk, h.groups⟩, h.idxOk, h.haltOk⟩,
    fun ⟨htable, hidx, hcause⟩ => ⟨hidx, htable.wf, htable.dist, htable.groups, hcause⟩⟩

theorem tableOk_cleared : TableOk Memory.cleared where
  wf := cleared_wf
  dist _ _ h := nomatch h
  groups _ _ _ _ := rfl

/-- A commit keeps the table's part of the invariant: its distances have 14 bits, and it sets a whole group. -/
theorem tableOk_commitSlots {m : Memory} {idx : Byte} (hidx : IsIndex idx) (p : Vector Byte 20) (h : TableOk m) :
    TableOk (commitSlots m idx p) where
  wf := commitSlots_wf m idx p hidx h.wf
  dist a v hv := by
    by_cases ha : ∃ k, a = angleOf idx k
    · obtain ⟨k, rfl⟩ := ha
      rw [read_commitSlots_own, Option.some.injEq] at hv
      exact hv ▸ sampleOf_dist_le p k
    · rw [read_commitSlots_other m idx p a (not_exists.mp ha)] at hv
      exact h.dist a v hv
  groups n hn k hk := by
    have hgroup : (4 * n + k) / 4 = 4 * n / 4 := by omega
    rw [isSome_read_commitSlots, isSome_read_commitSlots, hgroup, h.groups n hn k hk]

/-- Settles O9. -/
theorem resetMeetsTheInvariant : Obligations.ResetMeetsTheInvariant :=
  (inv_iff _).mpr ⟨tableOk_cleared, nofun, by decide⟩

theorem inv_of_deliver (s t : State) (b : Byte) (h : deliver b s = .next t) (hs : s.Inv) : t.Inv := by
  have ⟨htable, hidx, hcause⟩ := (inv_iff s).mp hs
  rcases deliver_cases h with ⟨hst, -, rfl⟩ | ⟨-, -, rfl⟩ | ⟨hst, hb, rfl⟩ | ⟨-, -, rfl⟩ | ⟨hst, -, -, rfl⟩ | ⟨-, -, rfl⟩ |
    ⟨hst, -, -, hi, rfl⟩ | ⟨hst, -, -, rfl⟩ | ⟨-, rfl⟩
  · exact (inv_iff _).mpr ⟨htable, nofun, by simp [hcause, hst]⟩
  · exact hs
  · exact (inv_iff _).mpr ⟨htable, fun _ => hb, by simp [hcause, hst]⟩
  · exact hs
  · exact (inv_iff _).mpr ⟨htable, nofun, by simp [hcause, hst]⟩
  · exact (inv_iff _).mpr ⟨htable, hidx, hcause⟩
  · exact (inv_iff _).mpr ⟨tableOk_commitSlots hi _ htable, nofun, by simp [hcause, hst]⟩
  · exact (inv_iff _).mpr ⟨htable, nofun, by simp [hcause, hst]⟩
  · exact hs

theorem inv_of_deliverAll {bs : List Byte} {s t : State} (h : deliverAll bs s = .next t) : s.Inv → t.Inv :=
  deliverAll_ind (fun s t => s.Inv → t.Inv) (fun _ => id) (fun _ _ _ hst htu hs => htu (hst hs)) inv_of_deliver bs s t h

theorem inv_of_not_rx {i : Instr} {s t : State} (hk : eventKindOf i ≠ .rx) (h : exec i s = .next t) (hs : s.Inv) :
    t.Inv := by
  have ⟨htable, hidx, hcause⟩ := (inv_iff s).mp hs
  cases effect_of_not_rx hk h with
  | rxfailRunning | closeRunning => exact (inv_iff _).mpr ⟨htable, nofun, by simp⟩
  | rxfailHalted | closeHalted => exact hs
  | reset => exact (inv_iff _).mpr ⟨tableOk_cleared, nofun, by simp⟩
  | snapshot | speed | errcnt => exact (inv_iff _).mpr ⟨htable, hidx, hcause⟩
  | _ => exact absurd rfl hk

/-- Settles O10: a step is idle, or its event decodes to a delivered byte, an operation that is no `RX` event, or a wire
form, which is a run of bytes. -/
theorem everyStepKeepsTheInvariant : Obligations.EveryStepKeepsTheInvariant := by
  intro s t hs h
  rcases step_cases h with ⟨-, rfl⟩ | ⟨c, rest, i, -, hd, he⟩
  · exact hs
  · have htaken : (s.taken rest).Inv := (inv_iff _).mpr ((inv_iff s).mp hs)
    rcases decode_kinds hd with ⟨b, rfl⟩ | hk | ⟨f, rfl⟩ | ⟨g, rfl⟩
    · exact inv_of_deliver _ t b ((exec_classified (s.taken rest) b).symm.trans he) htaken
    · exact inv_of_not_rx hk he htaken
    · exact inv_of_deliverAll he htaken
    · exact inv_of_deliverAll he htaken

/-! ### Staging -/

/-- Every byte of `bs` stands in the payload of `t`, in arrival order behind those `s` had staged, and nothing else
differs (R86). -/
structure Staged (bs : List Byte) (s t : State) : Prop where
  frame : t = { s with payload := t.payload, pcount := t.pcount }
  count : t.pcount.val = s.pcount.val + bs.length
  before : ∀ j : Fin 20, j.val < s.pcount.val → t.payload[j.val] = s.payload[j.val]
  staged : ∀ j : Fin 20, s.pcount.val ≤ j.val → j.val < s.pcount.val + bs.length →
    bs[j.val - s.pcount.val]? = some t.payload[j.val]

theorem Staged.nil (s : State) : Staged [] s s where
  frame := rfl
  count := rfl
  before _ _ := rfl
  staged j hle hlt := absurd hlt (by simpa using hle)

/-- One byte more in front: it takes the place at `pcount`, which the bytes after it leave alone. -/
theorem Staged.cons {b : Byte} {bs : List Byte} {s t : State} (hn : s.pcount.val ≤ 18)
    (h : Staged bs { s with payload := s.payload.set s.pcount b, pcount := s.pcount + 1 } t) : Staged (b :: bs) s t := by
  obtain ⟨hframe, hcount, hbefore, hstaged⟩ := h
  simp only [succ_val hn] at hcount hbefore hstaged
  refine ⟨hframe, by rw [hcount, List.length_cons]; omega, fun j hj => ?_, fun j hle hlt => ?_⟩
  · rw [hbefore j (by omega)]
    exact Vector.getElem_set_ne _ _ (by omega)
  · rw [List.length_cons] at hlt
    rcases Nat.eq_or_lt_of_le hle with heq | hgt
    · obtain rfl : s.pcount = j := Fin.ext heq
      rw [hbefore s.pcount (by omega)]
      simp
    · rw [← hstaged j hgt (by omega), show j.val - s.pcount.val = (j.val - (s.pcount.val + 1)) + 1 by omega,
        List.getElem?_cons_succ]

theorem exists_staged : ∀ (bs : List Byte) (s : State), s.st = .readPayload → s.pcount.val + bs.length ≤ 19 →
    ∃ t, deliverAll bs s = .next t ∧ Staged bs s t
  | [], s, _, _ => ⟨s, rfl, Staged.nil s⟩
  | b :: bs, s, hst, hlen => by
    rw [List.length_cons] at hlen
    have hn : s.pcount.val ≤ 18 := by omega
    obtain ⟨t, ht, hstaged⟩ := exists_staged bs { s with payload := s.payload.set s.pcount b, pcount := s.pcount + 1 } hst
      (by simp only [succ_val hn]; omega)
    exact ⟨t, by rw [deliverAll_cons, deliver_data b hst hn, andThen_next, ht], hstaged.cons hn⟩

/-- Settles O21. -/
theorem payloadBytesAreStagedInOrder : Obligations.PayloadBytesAreStagedInOrder := by
  intro bs s hst hlen
  obtain ⟨t, ht, hframe, hcount, hbefore, hstaged⟩ := exists_staged bs s hst hlen
  exact ⟨t, ht, hframe, hcount, hbefore, hstaged⟩

/-! ### The state after reset -/

/-- Settles O47. -/
theorem resetStateHasTheSpecValues : Obligations.ResetStateHasTheSpecValues :=
  ⟨rfl, read_nil, rfl, rfl, rfl, rfl⟩

end Sys2Proof.Machine
end

section
/-! Who sees what of the block: a consumer's read writes nothing but what it returns (R49, R162), and the framer sees the
framer alone (R58). -/

namespace Sys2Proof.Machine

open Sys2Proof

/-! ### Consumer reads -/

/-- A consumer's operation completes with a value in `out`, the same value whatever was returned before. -/
theorem exec_of_consumer {i : Instr} (hi : i.role = .consumer) (s : State) :
    ∃ v, ∀ o, exec i { s with out := o } = .next { s with out := some v } := by
  cases i with
  | snapshot => exact ⟨.snapshot (snapshotOf s.slots), fun _ => rfl⟩
  | speed => exact ⟨.speed s.speedRaw, fun _ => rfl⟩
  | errcnt => exact ⟨.errCount s.errCount, fun _ => rfl⟩
  | _ => exact nomatch hi

/-- Settles O45: the value returned does not depend on `out`, so the second read returns it again. -/
theorem consumersWriteNothing : Obligations.ConsumersWriteNothing := by
  intro i s hi
  obtain ⟨v, hv⟩ := exec_of_consumer hi s
  exact ⟨_, hv s.out, rfl, hv (some v)⟩

/-! ### The framer's view -/

theorem framer_eq_iff {s t : State} :
    s.framer = t.framer ↔
      s.st = t.st ∧ s.pcount = t.pcount ∧ s.idx = t.idx ∧ s.payload = t.payload ∧ s.draws = t.draws := by
  simp [State.framer]

/-- The end of a frame writes the framer from the framer alone (R87). -/
theorem framer_eq_of_endFrame {s t : State} (b : Byte) (h : s.framer = t.framer) :
    (s.endFrame b).framer = (t.endFrame b).framer := by
  obtain ⟨-, -, hidx, hpayload, hdraws⟩ := framer_eq_iff.mp h
  simp [framer_eq_iff, hidx, hpayload, hdraws]

/-- One operation other than a wire form. Its two runs can differ in their outcome only where a frame ends, and
there a commit and a drop leave the framer alike; RXFAIL and CLOSE find both blocks halted or neither. -/
theorem framer_eq_of_effect {i : Instr} {s t s' t' : State} (h : s.framer = t.framer) (hs : Effect s i s')
    (ht : Effect t i t') (hf : ∀ f, i ≠ .frame f) (hg : ∀ g, i ≠ .sample g) : s'.framer = t'.framer := by
  obtain ⟨hst, hpcount, hidx, hpayload, hdraws⟩ := framer_eq_iff.mp h
  cases hs with
  | frame f => exact absurd rfl (hf f)
  | sample g => exact absurd rfl (hg g)
  | rpLastCommit b | rpLastDrop b | commit b | drop b => cases ht <;> exact framer_eq_of_endFrame b h
  | rxfailRunning | rxfailHalted | closeRunning | closeHalted => cases ht <;> simp_all [framer_eq_iff]
  | _ => cases ht; simp [framer_eq_iff, hst, hpcount, hidx, hpayload, hdraws]

/-- One byte: both states classify it as the same operation (R66). -/
theorem framer_eq_of_deliver {b : Byte} {s t s' t' : State} (h : s.framer = t.framer) (hs : deliver b s = .next s')
    (ht : deliver b t = .next t') : s'.framer = t'.framer := by
  obtain ⟨hst, hpcount, -⟩ := framer_eq_iff.mp h
  rw [← exec_classified] at hs ht
  rw [← hst, ← hpcount] at ht
  refine framer_eq_of_effect h (effect_of_exec hs) (effect_of_exec ht) ?_ ?_ <;>
    cases classify s.st s.pcount b <;> exact nofun

theorem framer_eq_of_deliverAll : ∀ {bs : List Byte} {s t s' t' : State}, s.framer = t.framer →
    deliverAll bs s = .next s' → deliverAll bs t = .next t' → s'.framer = t'.framer
  | [], _, _, _, _, h, hs, ht => by cases hs; cases ht; exact h
  | b :: bs, s, t, s', t', h, hs, ht => by
    rw [deliverAll_cons] at hs ht
    obtain ⟨u, hsu, hus⟩ := andThen_eq_next hs
    obtain ⟨v, htv, hvt⟩ := andThen_eq_next ht
    exact framer_eq_of_deliverAll (framer_eq_of_deliver h hsu htv) hus hvt

/-- Settles O53: a wire form is a run of bytes, and every other operation is one case of `Effect` in both runs. -/
theorem framerDependsOnFramerOnly : Obligations.FramerDependsOnFramerOnly := by
  intro i s t s' t' h hs ht
  cases i with
  | frame f => exact framer_eq_of_deliverAll h hs ht
  | sample g => exact framer_eq_of_deliverAll h hs ht
  | _ => exact framer_eq_of_effect h (effect_of_exec hs) (effect_of_exec ht) nofun nofun

end Sys2Proof.Machine
end

section
/-! The machine of R55: the five writes of a commit, the reads of a snapshot, and what one step can do to one slot. -/

namespace Sys2Proof.Machine

open Sys2Proof

/-! ### The writes a commit owes -/

/-- The single writes that are left of a commit under way. -/
def CommitProgress.owes (c : CommitProgress) : MicroEvent → Prop
  | .writeSlot k => k ∈ c.slotsLeft
  | .writeSpeed => c.speedLeft = true
  | _ => False

/-- The commit with one write taken off what is left. -/
def CommitProgress.without (c : CommitProgress) : MicroEvent → CommitProgress
  | .writeSlot k => { c with slotsLeft := c.slotsLeft.filter fun j => decide (j ≠ k) }
  | .writeSpeed => { c with speedLeft := false }
  | _ => c

/-- What one write of a commit does to the block. -/
def CommitProgress.performed (cfg : Config) (c : CommitProgress) (s : State) : MicroEvent → State
  | .writeSlot k => { s with slots := s.slots.write (angleOf c.idx k) (sampleOf c.packet k cfg) }
  | .writeSpeed => { s with speedRaw := speedOf c.packet }
  | _ => s

theorem microStep_of_owes {cfg : Config} {c : CommitProgress} {e : MicroEvent} (h : c.owes e) (s : State)
    (snaps : List SnapProgress) :
    microStep cfg e ⟨s, snaps, some c⟩ = some ⟨c.performed cfg s e, snaps, (c.without e).left⟩ := by
  cases e with
  | writeSlot k => exact if_pos h
  | writeSpeed => exact if_pos h
  | _ => exact h.elim

theorem owes_without {c : CommitProgress} {e e' : MicroEvent} (h : c.owes e) :
    (c.without e).owes e' ↔ e' ≠ e ∧ c.owes e' := by
  cases e with
  | writeSlot k => cases e' <;> simp [CommitProgress.owes, CommitProgress.without, and_comm]
  | writeSpeed => cases e' <;> simp [CommitProgress.owes, CommitProgress.without]
  | _ => exact h.elim

theorem left_of_owes {c : CommitProgress} {e : MicroEvent} (h : c.owes e) : c.left = some c := by
  rw [commitProgress_left, if_neg]
  rintro ⟨hslots, hspeed⟩
  cases e <;> simp [CommitProgress.owes, hslots, hspeed] at h

theorem left_of_owes_nothing {c : CommitProgress} (h : ∀ e, ¬ c.owes e) : c.left = none := by
  rw [commitProgress_left, if_pos]
  exact ⟨List.eq_nil_iff_forall_not_mem.mpr fun k => h (.writeSlot k), Bool.eq_false_iff.mpr (h .writeSpeed)⟩

theorem angleOf_inj {idx : Byte} {j k : Fin 4} : angleOf idx j = angleOf idx k ↔ j = k := by
  simp only [angleOf]
  omega

/-- `t` is `s` with everything that is left of the commit written, and nothing else (R120). -/
structure Completed (cfg : Config) (c : CommitProgress) (s t : State) : Prop where
  frame : t = { s with slots := t.slots, speedRaw := t.speedRaw }
  speed : t.speedRaw = if c.speedLeft then speedOf c.packet else s.speedRaw
  own : ∀ k ∈ c.slotsLeft, t.slots.read (angleOf c.idx k) = some (sampleOf c.packet k cfg)
  other : ∀ a, (∀ k ∈ c.slotsLeft, a ≠ angleOf c.idx k) → t.slots.read a = s.slots.read a

theorem Completed.of_owes_nothing {cfg : Config} {c : CommitProgress} (h : ∀ e, ¬ c.owes e) (s : State) :
    Completed cfg c s s where
  frame := rfl
  speed := (if_neg (h .writeSpeed)).symm
  own k hk := absurd hk (h (.writeSlot k))
  other _ _ := rfl

/-- One write more in front: the writes after it leave its slot alone, because no two of a commit share one. -/
theorem Completed.cons {cfg : Config} {c : CommitProgress} {e : MicroEvent} {s t : State} (he : c.owes e)
    (h : Completed cfg (c.without e) (c.performed cfg s e) t) : Completed cfg c s t := by
  obtain ⟨hframe, hspeed, hown, hother⟩ := h
  cases e with
  | writeSlot k =>
    simp only [CommitProgress.without, CommitProgress.performed, List.mem_filter, decide_eq_true_eq] at hspeed hown hother
    refine ⟨hframe, hspeed, fun j hj => ?_, fun a ha => ?_⟩
    · by_cases hjk : j = k
      · subst hjk
        rw [hother _ fun i hi hij => hi.2 (angleOf_inj.mp hij).symm, read_write_same]
      · exact hown j ⟨hj, hjk⟩
    · rw [hother a fun i hi => ha i hi.1, read_write_other _ _ (ha k he)]
  | writeSpeed => exact ⟨hframe, hspeed.trans (if_pos he).symm, hown, hother⟩
  | _ => exact he.elim

/-- The owed writes, each once and in any order, complete the commit. -/
theorem exists_completed (cfg : Config) (snaps : List SnapProgress) : ∀ (order : List MicroEvent) (c : CommitProgress)
    (s : State), order.Nodup → (∀ e, e ∈ order ↔ c.owes e) →
    ∃ t, microRun cfg order ⟨s, snaps, c.left⟩ = some ⟨t, snaps, none⟩ ∧ Completed cfg c s t
  | [], c, s, _, howes => by
    have hnone : ∀ e, ¬ c.owes e := fun e he => nomatch (howes e).mpr he
    exact ⟨s, by rw [left_of_owes_nothing hnone, microRun], .of_owes_nothing hnone s⟩
  | e :: order, c, s, hnodup, howes => by
    obtain ⟨hnotMem, hnodup⟩ := List.nodup_cons.mp hnodup
    have he : c.owes e := (howes e).mp List.mem_cons_self
    have hrest (e' : MicroEvent) : e' ∈ order ↔ (c.without e).owes e' := by
      rw [owes_without he, ← howes, List.mem_cons]
      exact ⟨fun hmem => ⟨fun heq => hnotMem (heq ▸ hmem), .inr hmem⟩, fun ⟨hne, hmem⟩ => hmem.resolve_left hne⟩
    obtain ⟨t, hrun, ht⟩ := exists_completed cfg snaps order (c.without e) (c.performed cfg s e) hnodup hrest
    exact ⟨t, by rw [left_of_owes he, microRun, microStep_of_owes he, Option.bind_some, hrun], ht.cons he⟩

/-- Where a commit is split, the last byte of a validated packet ends the frame and begins the five writes (R55). -/
theorem microStep_rx_last {cfg : Config} {s : State} {b : Byte} (hsplit : SplitsCommit cfg) (hst : s.st = .readPayload)
    (hn : s.pcount.val = 19) (hv : s.verdict b cfg = true) (hidx : IsIndex s.idx) (snaps : List SnapProgress) :
    microStep cfg (.event (.event (rxWord b))) ⟨s, snaps, none⟩ =
      some ⟨s.endFrame b, snaps, some (.start s.idx (s.packet b))⟩ := by
  have hd : decode s.ctx (.event (rxWord b)) = .ok (.rpLast b) := by
    rw [decode_rxWord]
    simp [classify, RxOp.toInstr, hst, hn]
  rw [microStep_event_of_idle rfl hd]
  simp [wholeEvent, hsplit, hv, hidx]

theorem execWith_commit_of_last {cfg : Config} {s : State} {b : Byte} (hst : s.st = .readPayload) (hn : s.pcount.val = 19)
    (hv : s.verdict b cfg = true) (hidx : IsIndex s.idx) :
    execWith cfg (.commit b) s = .next ((s.commit s.idx (s.packet b) cfg).endFrame b) := by
  simp [execWith, execCommitWith, hst, hn, hv, lastCommit_next b hidx]

theorem mem_writes_iff_start_owes (idx : Byte) (p : Vector Byte 20) (e : MicroEvent) :
    e ∈ [MicroEvent.writeSlot 0, .writeSlot 1, .writeSlot 2, .writeSlot 3, .writeSpeed] ↔
      (CommitProgress.start idx p).owes e := by
  cases e <;> simp [CommitProgress.owes, CommitProgress.start]

/-- Settles O58: the five writes are those the commit owes at its start, so they complete it, slot by slot as
`commitSlots` does. -/
theorem fiveWritesInAnyOrderAreTheCommit : Obligations.FiveWritesInAnyOrderAreTheCommit := by
  intro cfg s b order hsplit hst hn hv hidx hperm
  obtain ⟨u, hrun, hframe, hspeed, hown, hother⟩ := exists_completed cfg [] order (.start s.idx (s.packet b)) (s.endFrame b)
    (hperm.nodup_iff.mpr (by decide)) fun e => hperm.mem_iff.trans (mem_writes_iff_start_owes s.idx (s.packet b) e)
  have hall : ∀ k : Fin 4, k ∈ (CommitProgress.start s.idx (s.packet b)).slotsLeft :=
    show ∀ k : Fin 4, k ∈ [0, 1, 2, 3] by decide
  refine ⟨_, _, _, execWith_commit_of_last hst hn hv hidx, microStep_rx_last hsplit hst hn hv hidx [], rfl, hrun, rfl, rfl,
    ?block, fun a => ?slots⟩
  case block => rw [hframe, hspeed]; rfl
  case slots =>
    show u.slots.read a = (commitSlots s.slots s.idx (s.packet b) cfg).read a
    by_cases ha : ∃ k, a = angleOf s.idx k
    · obtain ⟨k, rfl⟩ := ha
      exact (hown k (hall k)).trans (read_commitSlots_own _ _ _ k).symm
    · rw [read_commitSlots_other _ _ _ a (not_exists.mp ha)]
      exact hother a fun k _ => not_exists.mp ha k

/-! ### The reads of a snapshot -/

/-- What a consumer holds who has read the angles `seen`, newest first, of a table that did not change meanwhile. -/
def copied (m : Memory) (seen : List Nat) : List (Nat × (Half × Half)) := seen.map fun a => (a, shown (m.read a))

theorem entryFor_copied (m : Memory) (a : Nat) : ∀ seen : List Nat,
    entryFor a (copied m seen) = if a ∈ seen then some (shown (m.read a)) else none
  | [] => rfl
  | k :: seen => by
    rw [copied, List.map_cons, entryFor_cons, ← copied, entryFor_copied m a seen]
    by_cases hk : k = a
    · simp [hk]
    · simp [hk, Ne.symm hk]

/-- All 360 angles read, in whatever order, are the entries of a snapshot in angle order (R130). -/
theorem finishedEntries_copied (m : Memory) {seen : List Nat} (h : ∀ a < Config.nSlots, a ∈ seen) :
    finishedEntries (copied m seen) = some (snapshotOf m) := by
  have hentries : ∀ ks : List Nat, (∀ a ∈ ks, a < Config.nSlots) →
      ks.mapM (fun a => entryFor a (copied m seen)) = some (ks.map fun a => shown (m.read a)) := by
    intro ks hks
    induction ks with
    | nil => rfl
    | cons a ks ih =>
      obtain ⟨ha, hks⟩ := List.forall_mem_cons.mp hks
      rw [List.mapM_cons, ih hks, entryFor_copied, if_pos (h a ha)]
      rfl
  exact hentries _ fun a => List.mem_range.mp

@[simp] theorem findSnap_cons_same (c : Nat) (got : List (Nat × (Half × Half))) (ps : List SnapProgress) :
    findSnap c (⟨c, got⟩ :: ps) = some ⟨c, got⟩ := if_pos rfl

@[simp] theorem dropSnap_cons_same (c : Nat) (got : List (Nat × (Half × Half))) (ps : List SnapProgress) :
    dropSnap c (⟨c, got⟩ :: ps) = dropSnap c ps := by
  simp [dropSnap]

@[simp] theorem dropSnap_nil (c : Nat) : dropSnap c [] = [] := rfl

theorem microStep_snapRead {cfg : Config} {c a : Nat} {s : Conforming} {p : SnapProgress} (hp : findSnap c s.snaps = some p)
    (ha : a < Config.nSlots) (hnew : entryFor a p.got = none) :
    microStep cfg (.snapRead c a) s =
      some { s with snaps := ⟨c, (a, shown (s.block.slots.read a)) :: p.got⟩ :: dropSnap c s.snaps } := by
  simp [microStep, hp, ha, hnew]

theorem microStep_snapEnd {cfg : Config} {c : Nat} {s : Conforming} {p : SnapProgress} {es : List (Half × Half)}
    (hp : findSnap c s.snaps = some p) (hes : finishedEntries p.got = some es) :
    microStep cfg (.snapEnd c) s =
      some { s with block := { s.block with out := some (.snapshot es) }, snaps := dropSnap c s.snaps } := by
  simp [microStep, hp, hes]

/-- A consumer that has read `seen` reads `order` as well, with nothing between. -/
theorem microRun_snapReads (cfg : Config) (c : Nat) (s : State) (rest : List MicroEvent) : ∀ order seen : List Nat,
    (order ++ seen).Nodup → (∀ a ∈ order, a < Config.nSlots) →
    microRun cfg ((order.map fun a => .snapRead c a) ++ rest) ⟨s, [⟨c, copied s.slots seen⟩], none⟩ =
      microRun cfg rest ⟨s, [⟨c, copied s.slots (order.reverse ++ seen)⟩], none⟩
  | [], _, _, _ => rfl
  | a :: order, seen, hnodup, hlt => by
    have hmid : (order ++ a :: seen).Nodup := List.perm_middle.nodup_iff.mpr hnodup
    obtain ⟨ha, hlt⟩ := List.forall_mem_cons.mp hlt
    have hnew : entryFor a (copied s.slots seen) = none := by
      rw [entryFor_copied, if_neg]
      exact fun hmem => (List.nodup_cons.mp hnodup).1 (List.mem_append_right _ hmem)
    have hstep : microStep cfg (.snapRead c a) ⟨s, [⟨c, copied s.slots seen⟩], none⟩ =
        some ⟨s, [⟨c, copied s.slots (a :: seen)⟩], none⟩ := by
      rw [microStep_snapRead (findSnap_cons_same ..) ha hnew, dropSnap_cons_same]
      rfl
    rw [List.map_cons, List.cons_append, microRun, hstep, Option.bind_some, microRun_snapReads cfg c s rest order _ hmid hlt]
    simp

/-- Where a snapshot is split, SNAPSHOT is no single step (R55, R132). -/
theorem microStep_snapshot_of_split {cfg : Config} (h : SplitsSnapshot cfg) (s : State) (d : Byte) :
    microStep cfg (.event (.event (eventWord .snapshot d))) ⟨s, [], none⟩ = none := by
  have hd : decode s.ctx (.event (eventWord .snapshot d)) = .ok .snapshot := by simp [decode, decodeEvent]
  rw [microStep_event_of_idle rfl hd]
  exact if_pos h

/-- Settles O59: the reads leave the consumer with the copy of every angle, and the end puts it in angle order. -/
theorem readsInAnyOrderAreTheSnapshot : Obligations.ReadsInAnyOrderAreTheSnapshot := by
  intro cfg s c order hsplit hperm
  refine ⟨microStep_snapshot_of_split hsplit s, _, rfl, ?_⟩
  have hlt : ∀ a ∈ order, a < Config.nSlots := fun a ha => List.mem_range.mp (hperm.mem_iff.mp ha)
  have hall : ∀ a < Config.nSlots, a ∈ order.reverse ++ [] := fun a ha => by
    simpa using hperm.mem_iff.mpr (List.mem_range.mpr ha)
  have hnodup : (order ++ []).Nodup := by simpa using hperm.nodup_iff.mpr List.nodup_range
  have hbegin : microStep cfg (.snapBegin c) ⟨s, [], none⟩ = some ⟨s, [⟨c, copied s.slots []⟩], none⟩ :=
    if_pos ⟨hsplit, rfl⟩
  rw [List.cons_append, microRun, hbegin, Option.bind_some, microRun_snapReads cfg c s _ order [] hnodup hlt,
    microRun, microStep_snapEnd (findSnap_cons_same ..) (finishedEntries_copied s.slots hall)]
  simp [microRun]

/-! ### One step and one slot -/

theorem of_not_splitsCommit {cfg : Config} (h : ¬ SplitsCommit cfg) :
    cfg.snapAtomicity = .table ∧ cfg.commitAtomicity = .packet := by
  cases hs : cfg.snapAtomicity <;> cases hc : cfg.commitAtomicity <;> simp_all

theorem nextState_eq_some {r : Result} {s : State} (h : nextState r = some s) : r = .next s := by
  cases r <;> cases h
  rfl

/-- All an operation taken as one event can do: it ends a frame whose commit is then under way, or it is performed
whole, which a commit is only where it is not split. -/
theorem wholeEvent_cases {cfg : Config} {i : Instr} {s t : Conforming} (h : wholeEvent cfg i s = some t) :
    (∃ b, i = .rpLast b ∧ t.block = s.block.endFrame b) ∨
    (execWith cfg i s.block = .next t.block ∧ ∀ b, i = .rpLast b → s.block.verdict b cfg = true → ¬ SplitsCommit cfg) := by
  have hperformed (h : (nextState (execWith cfg i s.block)).map (fun u => { s with block := u }) = some t) :
      execWith cfg i s.block = .next t.block := by
    obtain ⟨u, hu, rfl⟩ := Option.map_eq_some_iff.mp h
    exact nextState_eq_some hu
  cases i with
  | rpLast b =>
    rw [wholeEvent] at h
    split at h
    · next =>
      split at h <;> cases h
      exact .inl ⟨b, rfl, rfl⟩
    · next hnot =>
      refine .inr ⟨hperformed h, fun b' hb hv hsplit => hnot ⟨hsplit, ?_⟩⟩
      cases hb
      exact hv
  | snapshot | frame f | sample g => exact .inr ⟨hperformed (Option.ite_none_left_eq_some.mp h).2, nofun⟩
  | _ => exact .inr ⟨hperformed h, nofun⟩

/-- All a decoded event, the wire forms apart, can do to the table: nothing, or RESET clears it, or RP.LAST commits a
packet to it (R34). -/
theorem slots_of_execWith_decoded {cfg : Config} {s u : State} {c : Code} {i : Instr} (hd : decode s.ctx c = .ok i)
    (hf : ∀ f, i ≠ .frame f) (hg : ∀ g, i ≠ .sample g) (h : execWith cfg i s = .next u) :
    u.slots = s.slots ∨ (i = .reset ∧ u.slots = Memory.cleared) ∨
    ∃ b, i = .rpLast b ∧ s.st = .readPayload ∧ s.pcount.val = 19 ∧ s.verdict b cfg = true ∧
      u.slots = commitSlots s.slots s.idx (s.packet b) cfg := by
  rcases decode_kinds hd with ⟨b, rfl⟩ | hk | ⟨f, rfl⟩ | ⟨g, rfl⟩
  · rw [execWith_classified] at h
    rcases deliverWith_cases h with ⟨-, -, rfl⟩ | ⟨-, -, rfl⟩ | ⟨-, -, rfl⟩ | ⟨-, -, rfl⟩ | ⟨-, -, -, rfl⟩ | ⟨-, -, rfl⟩ |
      ⟨hst, hn, hv, -, rfl⟩ | ⟨-, -, -, rfl⟩ | ⟨-, rfl⟩
    any_goals exact .inl rfl
    exact .inr (.inr ⟨b, by simp [classify, RxOp.toInstr, hst, hn], hst, hn, hv, rfl⟩)
  · by_cases hr : i = .reset
    · subst hr
      cases h
      exact .inr (.inl ⟨rfl, rfl⟩)
    · rw [execWith_eq_exec cfg hk hr] at h
      cases effect_of_not_rx hk h with
      | reset => exact absurd rfl hr
      | rxfailRunning | rxfailHalted | closeRunning | closeHalted | snapshot | speed | errcnt => exact .inl rfl
      | _ => exact absurd rfl hk
  · exact absurd rfl (hf f)
  · exact absurd rfl (hg g)

/-- Only the `RX` word of a byte decodes to RP.LAST of that byte. -/
theorem eq_rxWord_of_decode_rpLast {s : State} {c : Code} {b : Byte} (h : decode s.ctx c = .ok (.rpLast b)) :
    c = .event (rxWord b) := by
  cases c with
  | event w =>
    simp only [decode, decodeEvent] at h
    split at h
    · next hkind =>
      have hdata : wordData w = b := by
        cases hop : classify s.ctx.st s.ctx.pcount (wordData w) <;> simp_all [RxOp.toInstr]
      rw [rxWord, ← hdata, eventWord_kind_data w .rx hkind]
    all_goals cases h
  | sample w | frame w =>
    simp only [decode] at h
    split at h <;> cases h
  | other n w => cases h

theorem microStep_event_eq_some {cfg : Config} {c : Code} {s t : Conforming} (h : microStep cfg (.event c) s = some t) :
    ∃ i, decode s.block.ctx c = .ok i ∧ (i.role ≠ .consumer → s.commit = none) ∧ wholeEvent cfg i s = some t := by
  simp only [microStep] at h
  split at h
  · cases h
  · next i hd =>
    obtain ⟨hrole, h⟩ := Option.ite_none_left_eq_some.mp h
    exact ⟨i, hd, fun hi => by simpa [hi] using hrole, h⟩

theorem microStep_snapRead_eq_some {cfg : Config} {c a : Nat} {s t : Conforming}
    (h : microStep cfg (.snapRead c a) s = some t) :
    ∃ got, t = { s with snaps := ⟨c, (a, shown (s.block.slots.read a)) :: got⟩ :: dropSnap c s.snaps } := by
  simp only [microStep] at h
  split at h
  · cases h
  · next p _ =>
    obtain ⟨-, h⟩ := Option.ite_none_right_eq_some.mp h
    cases h
    exact ⟨p.got, rfl⟩

theorem microStep_writeSlot_eq_some {cfg : Config} {k : Fin 4} {s t : Conforming}
    (h : microStep cfg (.writeSlot k) s = some t) :
    ∃ c, s.commit = some c ∧ k ∈ c.slotsLeft ∧ t.block = c.performed cfg s.block (.writeSlot k) := by
  simp only [microStep] at h
  split at h
  · cases h
  · next c hc =>
    obtain ⟨hk, h⟩ := Option.ite_none_right_eq_some.mp h
    cases h
    exact ⟨c, hc, hk, rfl⟩

/-- A step that is neither an event nor the write of a slot leaves the table. -/
theorem slots_of_microStep {cfg : Config} {e : MicroEvent} {s t : Conforming} (h : microStep cfg e s = some t)
    (he : ∀ c, e ≠ .event c) (hw : ∀ k, e ≠ .writeSlot k) : t.block.slots = s.block.slots := by
  cases e with
  | event c => exact absurd rfl (he c)
  | writeSlot k => exact absurd rfl (hw k)
  | snapBegin c =>
    obtain ⟨-, h⟩ := Option.ite_none_right_eq_some.mp h
    cases h
    rfl
  | snapRead c a =>
    obtain ⟨got, rfl⟩ := microStep_snapRead_eq_some h
    rfl
  | snapEnd c =>
    simp only [microStep] at h
    split at h
    · cases h
    · split at h <;> cases h
      rfl
  | writeSpeed =>
    simp only [microStep] at h
    split at h
    · cases h
    · obtain ⟨-, h⟩ := Option.ite_none_right_eq_some.mp h
      cases h
      rfl

theorem read_commitSlots_cases (cfg : Config) (m : Memory) (idx : Byte) (p : Vector Byte 20) (a : Nat) :
    (commitSlots m idx p cfg).read a = m.read a ∨
    ∃ k, a = angleOf idx k ∧ (commitSlots m idx p cfg).read a = some (sampleOf p k cfg) := by
  by_cases ha : ∃ k, a = angleOf idx k
  · obtain ⟨k, rfl⟩ := ha
    exact .inr ⟨k, rfl, read_commitSlots_own m idx p k⟩
  · exact .inl (read_commitSlots_other m idx p a (not_exists.mp ha))

/-- Settles O60: a step is an event, whose effect on the table is nothing, a RESET or a commit in one step, or it is a
single-slot write, or it leaves the table. -/
theorem noStepTearsASlot : Obligations.NoStepTearsASlot := by
  refine ⟨fun cfg e s t a hwire h => ?_, fun cfg s t c a h => ?_⟩
  · cases e with
    | event c =>
      obtain ⟨i, hd, hidle, hwhole⟩ := microStep_event_eq_some h
      rcases wholeEvent_cases hwhole with ⟨b, -, ht⟩ | ⟨hexec, hsplit⟩
      · exact .inl (by rw [ht, endFrame_slots])
      have hf f (hi : i = .frame f) := (hwire c f f.g0 rfl).1 (hi ▸ hd)
      have hg g (hi : i = .sample g) := (hwire c ⟨0, 0, g, g, g, g, 0⟩ g rfl).2 (hi ▸ hd)
      rcases slots_of_execWith_decoded hd hf hg hexec with ht | ⟨rfl, ht⟩ | ⟨b, rfl, hst, hn, hv, ht⟩
      · exact .inl (by rw [ht])
      · exact .inr (.inr (.inr ⟨by rw [ht, read_cleared], c, rfl, hd⟩))
      · obtain ⟨hsnap, hcommit⟩ := of_not_splitsCommit (hsplit b rfl hv)
        rw [ht, eq_rxWord_of_decode_rpLast hd]
        rcases read_commitSlots_cases cfg s.block.slots s.block.idx (s.block.packet b) a with hr | ⟨k, ha, hr⟩
        · exact .inl hr
        · exact .inr (.inr (.inl ⟨b, k, rfl, hsnap, hcommit, hidle nofun, hst, hn, hv, ha, hr⟩))
    | writeSlot k =>
      obtain ⟨c, hc, hk, ht⟩ := microStep_writeSlot_eq_some h
      rw [ht]
      by_cases ha : a = angleOf c.idx k
      · exact .inr (.inl ⟨c, k, rfl, hc, hk, ha, ha ▸ read_write_same ..⟩)
      · exact .inl (read_write_other _ _ ha)
    | _ => exact .inl (by rw [slots_of_microStep h nofun nofun])
  · obtain ⟨got, rfl⟩ := microStep_snapRead_eq_some h
    exact ⟨⟨c, _⟩, findSnap_cons_same .., if_pos rfl⟩

end Sys2Proof.Machine
end

section
/-! The encoding. The rows of R66 as one relation, which `classify` decides; what each coded form decodes to and encodes
back; and from these what decoding and encoding are to each other. -/

namespace Sys2Proof

open Machine

/-! ### The rows of the classification (R66) -/

/-- The condition of an operation's row in the table of R66. -/
abbrev RxOp.row (op : RxOp) (st : FsmState) (n : Fin 20) (b : Byte) : Prop :=
  match op with
  | .ssStart => st = .seekStart ∧ b = Config.startByte
  | .ssSkip => st = .seekStart ∧ b ≠ Config.startByte
  | .riIndex => st = .readIndex ∧ IsIndex b
  | .riRestart => st = .readIndex ∧ b = Config.startByte
  | .riAbort => st = .readIndex ∧ (b ≤ 0x9F#8 ∨ 0xFB#8 ≤ b)
  | .rpData => st = .readPayload ∧ n.val ≤ 18
  | .rpLast => st = .readPayload ∧ n.val = 19
  | .haltIgnore => st = .halted

theorem classify_of_row {op : RxOp} {st : FsmState} {n : Fin 20} {b : Byte} (h : op.row st n b) :
    classify st n b = op := by
  cases op with
  | ssStart => obtain ⟨rfl, hb⟩ := h; exact if_pos hb
  | ssSkip => obtain ⟨rfl, hb⟩ := h; exact if_neg hb
  | riIndex => obtain ⟨rfl, hb⟩ := h; exact classify_index hb n
  | riRestart => obtain ⟨rfl, rfl⟩ := h; exact classify_restart n
  | riAbort =>
    obtain ⟨rfl, hb⟩ := h
    obtain ⟨hindex, hstart⟩ := (abort_range b).mp hb
    exact classify_abort hindex hstart n
  | rpData => obtain ⟨rfl, hn⟩ := h; exact if_pos hn
  | rpLast => obtain ⟨rfl, hn⟩ := h; exact if_neg (by omega)
  | haltIgnore => obtain rfl := h; rfl

theorem exists_row (st : FsmState) (n : Fin 20) (b : Byte) : ∃ op : RxOp, op.row st n b := by
  cases st with
  | seekStart =>
    by_cases hb : b = Config.startByte
    · exact ⟨.ssStart, rfl, hb⟩
    · exact ⟨.ssSkip, rfl, hb⟩
  | readIndex =>
    by_cases hi : IsIndex b
    · exact ⟨.riIndex, rfl, hi⟩
    · by_cases hb : b = Config.startByte
      · exact ⟨.riRestart, rfl, hb⟩
      · exact ⟨.riAbort, rfl, (abort_range b).mpr ⟨hi, hb⟩⟩
  | readPayload =>
    by_cases hn : n.val ≤ 18
    · exact ⟨.rpData, rfl, hn⟩
    · exact ⟨.rpLast, rfl, by omega⟩
  | halted => exact ⟨.haltIgnore, rfl⟩

/-- A byte has the operation in whose row it stands: the rows are complete (`exists_row`), and each is the answer of
`classify` where it applies. -/
theorem classify_eq_iff (st : FsmState) (n : Fin 20) (b : Byte) (op : RxOp) :
    classify st n b = op ↔ op.row st n b := by
  refine ⟨?_, classify_of_row⟩
  rintro rfl
  obtain ⟨op, hrow⟩ := exists_row st n b
  rwa [classify_of_row hrow]

/-- Settles O4: the rows are `RxOp.row`, and the next-state column is what each operation's effect leaves. -/
theorem byteClassificationTable : Obligations.ByteClassificationTable := by
  refine ⟨fun st n b => ?_, fun s t b h => ?_⟩
  · have hrow := classify_eq_iff st n b
    exact ⟨hrow .ssStart, hrow .ssSkip, hrow .riIndex, hrow .riRestart, hrow .riAbort, hrow .rpData, hrow .rpLast,
      hrow .haltIgnore⟩
  · rw [← exec_classified] at h
    have heffect := effect_of_exec h
    cases hop : classify s.st s.pcount b
    all_goals
      rw [hop] at heffect
      cases heffect <;> simp [*]

/-! ### Event words (R68) -/

theorem decode_rx (c : Ctx) (b : Byte) :
    decode c (.event (rxWord b)) = .ok ((classify c.st c.pcount b).toInstr c.verdict b) := by
  simp [decode, decodeEvent, rxWord]

/-- The operation of a byte's row is well formed, applies, and is encoded as that byte's word. -/
theorem wf_applies_encode_of_row {op : RxOp} {c : Ctx} {b : Byte} (h : op.row c.st c.pcount b) :
    (op.toInstr c.verdict b).wf = true ∧ (op.toInstr c.verdict b).applies c = true ∧
      encode (op.toInstr c.verdict b) = .event (rxWord b) := by
  cases op with
  | ssStart | riRestart => obtain ⟨hst, rfl⟩ := h; exact ⟨rfl, decide_eq_true hst, rfl⟩
  | ssSkip | riIndex | riAbort => exact ⟨decide_eq_true h.2, decide_eq_true h.1, rfl⟩
  | rpData | haltIgnore => exact ⟨rfl, decide_eq_true h, rfl⟩
  | rpLast =>
    obtain ⟨hst, hn⟩ := h
    rcases hv : c.verdict with _ | _ | _ <;> exact ⟨rfl, decide_eq_true ⟨hst, hn, hv⟩, rfl⟩

/-- Decoding a byte's word gives any operation of the byte's row. -/
theorem decode_rx_of_row {op : RxOp} {c : Ctx} {b : Byte} (h : op.row c.st c.pcount b) :
    decode c (.event (rxWord b)) = .ok (op.toInstr c.verdict b) := by
  rw [decode_rx, classify_of_row h]

theorem wordKind_eq_none_iff (w : BitVec 11) : wordKind w = none ↔ w.extractLsb' 8 3 = 7#3 := by
  unfold wordKind
  generalize w.extractLsb' 8 3 = kind
  revert kind
  decide

theorem decodeEvent_eq_error_iff (c : Ctx) (w : BitVec 11) :
    decodeEvent c w = .error .noSuchKind ↔ wordKind w = none := by
  unfold decodeEvent
  split <;> simp [*]

/-! ### Packed bytes -/

theorem packBytes_unpackBytes : ∀ n w : Nat, packBytes (unpackBytes n w) = w % 256 ^ n
  | 0, w => by simp [unpackBytes, packBytes, Nat.mod_one]
  | n + 1, w => by
    rw [unpackBytes, packBytes, packBytes_unpackBytes n, BitVec.toNat_ofNat, pow_succ' 256 n]
    exact Nat.mod_mul.symm

theorem two_pow_eight_mul (n : Nat) : 2 ^ (8 * n) = 256 ^ n := Nat.pow_mul 2 8 n

/-- The word of a byte list holds the bytes (log 14). -/
theorem unpackBytes_ofNat_packBytes (bs : List Byte) :
    unpackBytes bs.length (BitVec.ofNat (8 * bs.length) (packBytes bs)).toNat = bs := by
  rw [BitVec.toNat_ofNat, two_pow_eight_mul, Nat.mod_eq_of_lt (packBytes_lt bs), unpackBytes_packBytes]

/-- The bytes of a word make up the word. -/
theorem ofNat_packBytes_unpackBytes (n : Nat) (w : BitVec (8 * n)) :
    BitVec.ofNat (8 * n) (packBytes (unpackBytes n w.toNat)) = w := by
  rw [packBytes_unpackBytes, ← two_pow_eight_mul, Nat.mod_eq_of_lt w.isLt, BitVec.ofNat_toNat, BitVec.setWidth_eq]

/-! ### The wire forms (R61, R64) -/

theorem groupOfBytes_eq_some_iff (bs : List Byte) (g : SampleGroup) : groupOfBytes bs = some g ↔ bs = g.bytes := by
  constructor
  · intro h
    unfold groupOfBytes at h
    split at h <;> cases h
    rfl
  · rintro rfl
    rfl

theorem frameOfBytes_eq_some_iff (bs : List Byte) (f : Frame) :
    frameOfBytes bs = some f ↔ IsIndex f.index ∧ bs = f.bytes := by
  constructor
  · intro h
    unfold frameOfBytes at h
    split at h
    · split at h <;> cases h
      next hbegins =>
      obtain ⟨rfl, hindex⟩ := hbegins
      exact ⟨hindex, by simp [Frame.bytes, SampleGroup.bytes]⟩
    · cases h
  · rintro ⟨hindex, rfl⟩
    simp [Frame.bytes, SampleGroup.bytes, frameOfBytes, hindex]

theorem decode_sample_eq_ok_iff (c : Ctx) (w : BitVec 32) (i : Instr) :
    decode c (.sample w) = .ok i ↔ ∃ g, unpackBytes 4 w.toNat = g.bytes ∧ i = .sample g := by
  simp only [decode, ← groupOfBytes_eq_some_iff]
  cases groupOfBytes (unpackBytes 4 w.toNat) <;> simp [eq_comm]

theorem decode_frame_eq_ok_iff (c : Ctx) (w : BitVec 176) (i : Instr) :
    decode c (.frame w) = .ok i ↔ ∃ f, (IsIndex f.index ∧ unpackBytes 22 w.toNat = f.bytes) ∧ i = .frame f := by
  simp only [decode, ← frameOfBytes_eq_some_iff]
  cases frameOfBytes (unpackBytes 22 w.toNat) <;> simp [eq_comm]

/-! ### Decoding against encoding -/

/-- Settles O2: a byte operation that is well formed and applies is the operation of its byte's row, and the other
operations are read back from their kind or from their bytes. -/
theorem decodeOfEncodeIsTheInstruction : Obligations.DecodeOfEncodeIsTheInstruction := by
  intro i c hwf happ
  cases i with
  | ssStart => exact decode_rx_of_row (op := .ssStart) ⟨of_decide_eq_true happ, rfl⟩
  | ssSkip b => exact decode_rx_of_row (op := .ssSkip) ⟨of_decide_eq_true happ, of_decide_eq_true hwf⟩
  | riIndex b => exact decode_rx_of_row (op := .riIndex) ⟨of_decide_eq_true happ, of_decide_eq_true hwf⟩
  | riRestart => exact decode_rx_of_row (op := .riRestart) ⟨of_decide_eq_true happ, rfl⟩
  | riAbort b => exact decode_rx_of_row (op := .riAbort) ⟨of_decide_eq_true happ, of_decide_eq_true hwf⟩
  | rpData b => exact decode_rx_of_row (op := .rpData) (of_decide_eq_true happ)
  | haltIgnore b => exact decode_rx_of_row (op := .haltIgnore) (of_decide_eq_true happ)
  | rpLast b | commit b | drop b =>
    obtain ⟨hst, hn, hv⟩ := of_decide_eq_true happ
    exact (decode_rx_of_row (op := .rpLast) ⟨hst, hn⟩).trans (by rw [hv]; rfl)
  | frame f =>
    exact (decode_frame_eq_ok_iff c _ _).mpr ⟨f, ⟨of_decide_eq_true hwf, unpackBytes_ofNat_packBytes f.bytes⟩, rfl⟩
  | sample g => exact (decode_sample_eq_ok_iff c _ _).mpr ⟨g, unpackBytes_ofNat_packBytes g.bytes, rfl⟩
  | rxfail | close | reset | snapshot | speed | errcnt => rfl

/-- What an event word decodes to has the row of the word's byte, or is no `RX` event and applies everywhere. -/
theorem wf_applies_encode_of_decodeEvent {c : Ctx} {w : BitVec 11} {i : Instr} (h : decodeEvent c w = .ok i) :
    i.wf = true ∧ i.applies c = true ∧ (wordKind w = some .rx → encode i = .event w) := by
  cases hk : wordKind w with
  | none => rw [(decodeEvent_eq_error_iff c w).mpr hk] at h; cases h
  | some k =>
    rw [decodeEvent, hk] at h
    cases k with
    | rx =>
      cases h
      have hrow := (classify_eq_iff c.st c.pcount (wordData w) _).mp rfl
      obtain ⟨hwf, happ, hencode⟩ := wf_applies_encode_of_row hrow
      refine ⟨hwf, happ, fun _ => ?_⟩
      rw [hencode, rxWord, eventWord_kind_data w .rx hk]
    | _ => cases h; exact ⟨rfl, rfl, nofun⟩

/-- Settles O3: an event word by its kind, a wire form by the bytes that its fields make up again. -/
theorem decodedIsWellFormedAppliesAndEncodesBack : Obligations.DecodedIsWellFormedAppliesAndEncodesBack := by
  refine ⟨fun c w i h => ?back, fun c w => ⟨wordKind_eq_none_iff w, ?kindSeven⟩, fun c d => ?ignoredData⟩
  case back =>
    cases w with
    | event w =>
      obtain ⟨hwf, happ, hencode⟩ := wf_applies_encode_of_decodeEvent h
      exact ⟨hwf, happ, fun hrx => hencode (hrx w rfl)⟩
    | sample w =>
      obtain ⟨g, hbytes, rfl⟩ := (decode_sample_eq_ok_iff c w i).mp h
      refine ⟨rfl, rfl, fun _ => ?_⟩
      rw [encode, ← hbytes]
      exact congrArg Code.sample (ofNat_packBytes_unpackBytes 4 w)
    | frame w =>
      obtain ⟨f, ⟨hindex, hbytes⟩, rfl⟩ := (decode_frame_eq_ok_iff c w i).mp h
      refine ⟨decide_eq_true hindex, rfl, fun _ => ?_⟩
      rw [encode, ← hbytes]
      exact congrArg Code.frame (ofNat_packBytes_unpackBytes 22 w)
    | other n w => cases h
  case kindSeven => rw [← wordKind_eq_none_iff, decode, decodeEvent_eq_error_iff]
  case ignoredData =>
    show decode c (.event (eventWord .rxfail d)) = .ok .rxfail ∧ decode c (.event (eventWord .close d)) = .ok .close ∧
      decode c (.event (eventWord .reset d)) = .ok .reset ∧ decode c (.event (eventWord .snapshot d)) = .ok .snapshot ∧
      decode c (.event (eventWord .speed d)) = .ok .speed ∧ decode c (.event (eventWord .errcnt d)) = .ok .errcnt
    simp [decode, decodeEvent]

/-! ### Words and classes written out -/

/-- Settles O1: each word is a numeral, so the decoder is evaluated on it. -/
theorem wordsWrittenFromTheSpecDecode : Obligations.WordsWrittenFromTheSpecDecode :=
  ⟨rfl, rfl, rfl, rfl, rfl, rfl, rfl, rfl, rfl, rfl, rfl, rfl, rfl, rfl, rfl, rfl, rfl, rfl, rfl⟩

/-- Settles O5: each class is compared with its patterns on the 256 bytes. -/
theorem byteClassesAreTheirBitPatterns : Obligations.ByteClassesAreTheirBitPatterns := by
  intro b
  refine ⟨?low, ?index, byteClass_start b, ?high, ?notStart, ?lowOrHigh⟩
  all_goals revert b; decide

end Sys2Proof
end

section
/-! Where events and operations complete, the wire forms as their bytes, and the bytes of a payload. -/

namespace Sys2Proof.Machine

open Sys2Proof

/-! ### Completion -/

/-- Any bytes are delivered in a state of the invariant, which every byte keeps. -/
theorem deliverAll_completes : ∀ (bs : List Byte) {s : State}, s.Inv → ∃ t, deliverAll bs s = .next t ∧ t.Inv
  | [], s, h => ⟨s, rfl, h⟩
  | b :: bs, s, h => by
    obtain ⟨u, hu⟩ := deliver_completes h.idxOk b
    obtain ⟨t, ht, hinv⟩ := deliverAll_completes bs (inv_of_deliver s u b hu h)
    exact ⟨t, by rw [deliverAll_cons, hu, andThen_next, ht], hinv⟩

/-- Settles O12: every byte completes and leaves the invariant for the next. -/
theorem anyBytesCanBeDelivered : Obligations.AnyBytesCanBeDelivered :=
  fun bs _ h => deliverAll_completes bs h

theorem answersNext_deliverAll (bs : List Byte) {s : State} (h : s.Inv) : answersNext (deliverAll bs s) := by
  obtain ⟨t, ht, -⟩ := deliverAll_completes bs h
  exact ⟨t, ht⟩

/-- The lifecycle operations and the reads complete in every state (R73). -/
theorem answersNext_exec_of_not_rx {i : Instr} (h : eventKindOf i ≠ .rx) (s : State) : answersNext (exec i s) := by
  cases i with
  | rxfail | close | reset | snapshot | speed | errcnt => exact ⟨_, rfl⟩
  | _ => exact absurd rfl h

theorem inv_taken {s : State} (h : s.Inv) (rest : List Code) : (s.taken rest).Inv := (inv_iff _).mpr ((inv_iff s).mp h)

/-- Settles O11: what decodes is a delivered byte, an operation that is no `RX` event, or a wire form. -/
theorem everyEventHasANextState : Obligations.EveryEventHasANextState := by
  intro s hs hdecodes
  cases hp : s.pending with
  | nil => exact ⟨s, step_of_pending_nil hp⟩
  | cons c rest =>
    obtain ⟨i, hd⟩ := hdecodes c rest hp
    have htaken := inv_taken hs rest
    rw [step_of_decode_ok hp hd]
    rcases decode_kinds hd with ⟨b, rfl⟩ | hk | ⟨f, rfl⟩ | ⟨g, rfl⟩
    · obtain ⟨t, ht⟩ := deliver_completes htaken.idxOk b
      exact ⟨t, (exec_classified (s.taken rest) b).trans ht⟩
    · exact answersNext_exec_of_not_rx hk _
    · exact answersNext_deliverAll f.bytes htaken
    · exact answersNext_deliverAll g.bytes htaken

/-! ### Where a row applies -/

/-- The verdict a table row is asked for in a state: that of the byte for the two outcomes, none for the rest (R66). -/
def State.verdictFor (s : State) : Instr → Option Bool
  | .commit b => some (s.verdict b)
  | .drop b => some (s.verdict b)
  | _ => none

/-- Whether an operation's table row applies in a state. -/
abbrev State.rowApplies (s : State) (i : Instr) : Bool := i.applies ⟨s.st, s.pcount, s.verdictFor i⟩

/-- The last payload byte completes where `idx` is an index byte: a commit then has its slots, and a drop needs none. -/
theorem answersNext_last {s : State} (hidx : IsIndex s.idx) (b : Byte) :
    answersNext (if s.verdict b then s.lastCommit b else s.lastDrop b) := by
  split
  · exact ⟨_, lastCommit_next b hidx⟩
  · exact ⟨_, lastDrop_next s b _⟩

/-- Every operation is guarded by its row (log 9), and what it does behind the guard completes under the invariant. -/
theorem exists_guarded (i : Instr) (s : State) :
    ∃ r, exec i s = guarded (s.rowApplies i) r ∧ (s.Inv → s.rowApplies i = true → answersNext r) := by
  cases i with
  | ssStart | ssSkip b | riIndex b | riRestart | riAbort b | rpData b | haltIgnore b | rxfail | close | reset | snapshot |
    speed | errcnt =>
    exact ⟨_, rfl, fun _ _ => ⟨_, rfl⟩⟩
  | rpLast b =>
    have hrow : s.rowApplies (.rpLast b) = decide (s.st = .readPayload ∧ s.pcount.val = 19) := by
      simp [Instr.applies, State.verdictFor]
    refine ⟨_, by rw [hrow]; rfl, fun hinv happ => answersNext_last (hinv.idxOk ?_) b⟩
    exact (of_decide_eq_true (hrow ▸ happ)).1
  | commit b =>
    have hrow : s.rowApplies (.commit b) = decide (s.st = .readPayload ∧ s.pcount.val = 19 ∧ s.verdict b = true) := by
      simp [Instr.applies, State.verdictFor]
    refine ⟨_, by rw [hrow]; rfl, fun hinv happ => ⟨_, lastCommit_next b (hinv.idxOk ?_)⟩⟩
    exact (of_decide_eq_true (hrow ▸ happ)).1
  | drop b =>
    have hrow : s.rowApplies (.drop b) = decide (s.st = .readPayload ∧ s.pcount.val = 19 ∧ s.verdict b = false) := by
      simp [Instr.applies, State.verdictFor]
    exact ⟨_, by rw [hrow]; rfl, fun _ _ => ⟨_, lastDrop_next s b _⟩⟩
  | frame f => exact ⟨_, rfl, fun hinv _ => answersNext_deliverAll f.bytes hinv⟩
  | sample g => exact ⟨_, rfl, fun hinv _ => answersNext_deliverAll g.bytes hinv⟩

theorem answersNext_exec_of_row {i : Instr} {s : State} (hinv : s.Inv) (h : s.rowApplies i = true) :
    answersNext (exec i s) := by
  obtain ⟨r, hr, hcompletes⟩ := exists_guarded i s
  rw [hr, h, guarded_true]
  exact hcompletes hinv h

theorem exec_refused_of_not_row {i : Instr} {s : State} (h : s.rowApplies i = false) :
    exec i s = .refused .notApplicable := by
  obtain ⟨r, hr, -⟩ := exists_guarded i s
  rw [hr, h, guarded_false]

/-- Settles O13: the guard of every operation is its row. -/
theorem operationsCompleteExactlyWhereTheirRowApplies : Obligations.OperationsCompleteExactlyWhereTheirRowApplies :=
  fun _ _ => ⟨fun hinv _ => answersNext_exec_of_row hinv, exec_refused_of_not_row⟩

/-- Settles O14: RP.LAST and COMMIT both go by `lastCommit`, which asks for an index byte. -/
theorem commitOutsideTheIndexRangeFaults : Obligations.CommitOutsideTheIndexRangeFaults := by
  intro s b hst hn hv hidx
  have hfault : s.lastCommit b = .fault .indexOutOfRange := if_neg hidx
  constructor
  · rw [← execWith_block, execWith_rpLast_of_last _ b hst hn, if_pos hv, hfault]
  · rw [← hfault]
    exact if_pos (decide_eq_true ⟨hst, hn, hv⟩)

/-! ### The wire forms as single events (R76) -/

theorem step_rx_cons (b : Byte) (rest : List Code) (s : State) (o : Option Output) :
    step { s with pending := .event (rxWord b) :: rest, out := o } = deliver b { s with pending := rest, out := none } :=
  step_rx _ b rest rfl

/-- `RX` words one step each are their bytes delivered, because what is pending plays no part in a byte. -/
theorem steps_rx : ∀ (bs : List Byte) (s : State),
    steps bs.length { s with pending := bs.map fun b => .event (rxWord b), out := none } =
      deliverAll bs { s with pending := [], out := none }
  | [], _ => rfl
  | b :: bs, s => by
    rw [List.length_cons, steps_succ, List.map_cons, step_rx_cons, deliverAll_cons, deliver_framed b s _ none,
      deliver_framed b s [] none, andThen_assoc, andThen_assoc]
    simp only [andThen_next, steps_rx bs]

/-- The first event of a run clears what was returned before it. -/
theorem runOf_rx {bs : List Byte} (h : bs ≠ []) (s : State) :
    runOf (bs.map fun b => .event (rxWord b)) s = deliverAll bs { s with pending := [], out := none } := by
  obtain ⟨b, bs, rfl⟩ := List.exists_cons_of_ne_nil h
  have hfirst : step { s with pending := .event (rxWord b) :: bs.map fun b => .event (rxWord b) } =
      step { s with pending := .event (rxWord b) :: bs.map fun b => .event (rxWord b), out := none } :=
    (step_rx_cons b _ s s.out).trans (step_rx_cons b _ s none).symm
  rw [← steps_rx, runOf, List.length_map, List.length_cons, steps_succ, steps_succ, List.map_cons, hfirst]

/-- Settles O8: FRAME and SAMPLE are lists of bytes. -/
theorem wireFormsAreTheirByteEvents : Obligations.WireFormsAreTheirByteEvents :=
  ⟨fun _ s h => runOf_rx h s, fun f s => runOf_rx (bs := f.bytes) nofun s, fun g s => runOf_rx (bs := g.bytes) nofun s⟩

/-! ### The bytes of a payload -/

/-- Staging leaves the places behind the staged bytes alone. -/
theorem payload_behind_staged : ∀ (bs : List Byte) {s t : State}, s.st = .readPayload → s.pcount.val + bs.length ≤ 19 →
    deliverAll bs s = .next t → ∀ j : Fin 20, s.pcount.val + bs.length ≤ j.val → t.payload[j.val] = s.payload[j.val]
  | [], _, _, _, _, h, _, _ => by cases h; rfl
  | b :: bs, s, t, hst, hlen, h, j, hj => by
    rw [List.length_cons] at hlen hj
    have hn : s.pcount.val ≤ 18 := by omega
    rw [deliverAll_cons, deliver_data b hst hn, andThen_next] at h
    refine (payload_behind_staged bs ?_ ?_ h j ?_).trans (Vector.getElem_set_ne s.pcount.isLt j.isLt (by omega))
    · exact hst
    · simp only [succ_val hn]; omega
    · simp only [succ_val hn]; omega

/-- Settles O28: four staged bytes that begin where group `k` does are the bytes `groupOf` reads. -/
theorem sampleBytesAreStagedAsTheirGroup : Obligations.SampleBytesAreStagedAsTheirGroup := by
  intro s g k hst hn
  have hk := k.isLt
  obtain ⟨t, ht, hframe, hcount, hbefore, hstaged⟩ := exists_staged g.bytes s hst (by rw [sample_bytes_length]; omega)
  have hbyte (i : Fin 4) {j : Nat} (hj : j = 2 + 4 * k.val + i.val) (hlt : j < 20) :
      g.bytes[i.val] = t.payload[j] := by
    have h := hstaged ⟨j, hlt⟩ (by simp only; omega) (by simp only [sample_bytes_length]; omega)
    have hi : j - s.pcount.val = i.val := by omega
    simp only [hi] at h
    exact (List.getElem?_eq_some_iff.mp h).2
  have hgroup : groupOf t.payload k = g := by
    rw [groupOf, ← hbyte 0 (by simp), ← hbyte 1 (by omega), ← hbyte 2 (by omega), ← hbyte 3 (by omega)]
    rfl
  refine ⟨t, ht, hframe, by rw [hcount, hn, sample_bytes_length]; omega, hgroup, ?_, fun j hj => ?_⟩
  · rw [sampleOf, hgroup]
    rfl
  · rcases hj with hlt | hge
    · exact hbefore j (by omega)
    · exact payload_behind_staged g.bytes hst (by rw [sample_bytes_length]; omega) ht j
        (by rw [sample_bytes_length]; omega)

/-- The twentieth byte ends the frame, whatever the verdict (R87). -/
theorem deliver_last_ends {s : State} (b : Byte) (hst : s.st = .readPayload) (hn : s.pcount.val = 19)
    (hidx : IsIndex s.idx) : ∃ t, deliver b s = .next t ∧ t.idx = s.idx ∧ t.st = .seekStart := by
  rw [deliver_last b hst hn]
  split
  · exact ⟨_, lastCommit_next b hidx, rfl, rfl⟩
  · exact ⟨_, lastDrop_next s b _, rfl, rfl⟩

/-- Settles O30: bytes short of the twentieth are staged, and the twentieth is the one after 19 staged ones. -/
theorem payloadBytesAreNeverFraming : Obligations.PayloadBytesAreNeverFraming := by
  intro s bs hinv hst hlen
  have hpcount := s.pcount.isLt
  rcases Nat.lt_or_eq_of_le hlen with hlt | heq
  · obtain ⟨t, ht, hstaged⟩ := exists_staged bs s hst (by omega)
    have hframe := hstaged.frame
    have hcount := hstaged.count
    refine ⟨t, ht, by rw [hframe], fun _ => ⟨by rw [hframe]; exact hst, hcount⟩, fun h => by omega⟩
  · have hne : bs ≠ [] := by
      rintro rfl
      rw [List.length_nil] at heq
      omega
    obtain ⟨bs, b, rfl⟩ := (List.eq_nil_or_concat' bs).resolve_left hne
    rw [List.length_append, List.length_singleton] at heq hlen
    obtain ⟨u, hu, hstaged⟩ := exists_staged bs s hst (by omega)
    have hidx : u.idx = s.idx := by rw [hstaged.frame]
    have hust : u.st = .readPayload := by rw [hstaged.frame]; exact hst
    obtain ⟨t, ht, htidx, htst⟩ := deliver_last_ends b hust (by rw [hstaged.count]; omega) (hidx ▸ hinv.idxOk hst)
    refine ⟨t, ?_, htidx.trans hidx, fun h => ?_, fun _ => htst⟩
    · rw [deliverAll_append, hu, andThen_next, deliverAll_cons, ht]
      rfl
    · rw [List.length_append, List.length_singleton] at h
      omega

/-! ### The checksum's bit 15 (R72) -/

/-- A checksum has 15 bits, so extended to 16 it has bit 15 clear. -/
theorem checksum_beq_of_bit15 (c : BitVec 15) {v : Half} (h : v.getLsbD 15 = true) : (c.setWidth 16 == v) = false := by
  refine beq_eq_false_iff_ne.mpr ?_
  rintro rfl
  simp at h

theorem transmittedChecksum_bit15 (p : Vector Byte 20) : (transmittedChecksum p).getLsbD 15 = p[19].getLsbD 7 := by
  rw [transmittedChecksum, le16_append, BitVec.getLsbD_append]
  rfl

/-- Settles O38: the last payload byte's bit 7 is bit 15 of the transmitted checksum, and no checksum has that bit. -/
theorem checksumBit15NeverValidates : Obligations.ChecksumBit15NeverValidates :=
  ⟨fun _ p h => checksum_beq_of_bit15 _ ((transmittedChecksum_bit15 p).trans h), fun _ h => checksum_beq_of_bit15 _ h⟩

end Sys2Proof.Machine
end

section
/-! The byte operations (R81 to R88) and the consolidated step (R92). A byte's operation is that of its row of R66, and
performing it is delivering the byte; so each claim is what `deliver` does in that row. -/

namespace Sys2Proof.Machine

open Sys2Proof

/-! ### The operation of a row -/

/-- The word of a byte decodes to the operation of the byte's row, and that operation is the byte delivered (R66). -/
theorem rx_of_row {op : RxOp} {s : State} {b : Byte} (h : op.row s.st s.pcount b) :
    decode s.ctx (.event (rxWord b)) = .ok (op.toInstr none b) ∧ exec (op.toInstr none b) s = deliver b s :=
  ⟨decode_rx_of_row h, by rw [← exec_classified, classify_of_row h]⟩

/-- Bytes that each leave a state as it is leave it so in any run. -/
theorem deliverAll_of_fixed : ∀ {bs : List Byte} {s : State}, (∀ b ∈ bs, deliver b s = .next s) →
    deliverAll bs s = .next s
  | [], _, _ => rfl
  | b :: bs, s, h => by
    obtain ⟨hb, hbs⟩ := List.forall_mem_cons.mp h
    rw [deliverAll_cons, hb, andThen_next, deliverAll_of_fixed hbs]

/-! ### SeekStart, ReadIndex and Halted -/

/-- Settles O15: any other byte than the start byte is skipped, and so stays in `SeekStart`. -/
theorem ssStartGoesToReadIndex : Obligations.SsStartGoesToReadIndex := by
  intro s hst
  obtain ⟨hd, he⟩ := rx_of_row (op := .ssStart) (s := s) ⟨hst, rfl⟩
  refine ⟨hd, he.trans (deliver_start hst), rfl, fun b t ht hne => ?_⟩
  by_contra hb
  rw [deliver_skip hst hb] at ht
  cases ht
  exact hne hst

/-- Settles O16: a skipped byte leaves the state as it was, so a run of them does. -/
theorem ssSkipDiscardsTheByte : Obligations.SsSkipDiscardsTheByte := by
  refine ⟨fun s b hst hb => ?_, fun bs s hst hbs => ?_⟩
  · obtain ⟨hd, he⟩ := rx_of_row (op := .ssSkip) (s := s) ⟨hst, hb⟩
    exact ⟨hd, he.trans (deliver_skip hst hb), rfl⟩
  · exact deliverAll_of_fixed fun b hb => deliver_skip hst (ne_of_mem_of_not_mem hb hbs)

/-- Settles O17. -/
theorem riIndexRecordsTheIndexByte : Obligations.RiIndexRecordsTheIndexByte := by
  refine ⟨fun s b hst hlo hhi => ?_, rfl, rfl⟩
  obtain ⟨hd, he⟩ := rx_of_row (op := .riIndex) (s := s) ⟨hst, hlo, hhi⟩
  exact ⟨hd, he.trans (deliver_index hst ⟨hlo, hhi⟩), rfl⟩

/-- Settles O18: another start byte leaves the state as it was, so a run of them does. -/
theorem riRestartStaysInReadIndex : Obligations.RiRestartStaysInReadIndex := by
  refine ⟨fun s hst => ?_, fun n s hst => ?_⟩
  · obtain ⟨hd, he⟩ := rx_of_row (op := .riRestart) (s := s) ⟨hst, rfl⟩
    exact ⟨hd, he.trans (deliver_restart hst), rfl⟩
  · exact deliverAll_of_fixed fun b hb => List.eq_of_mem_replicate hb ▸ deliver_restart hst

/-- Settles O19. -/
theorem riAbortReturnsToSeekStart : Obligations.RiAbortReturnsToSeekStart := by
  intro s b hst hb
  obtain ⟨hd, he⟩ := rx_of_row (op := .riAbort) (s := s) ⟨hst, hb⟩
  obtain ⟨hindex, hstart⟩ := (abort_range b).mp hb
  exact ⟨hd, he.trans (deliver_abort hst hindex hstart), rfl⟩

/-- Settles O23. -/
theorem haltIgnoreChangesNothing : Obligations.HaltIgnoreChangesNothing := by
  intro s b hst
  obtain ⟨hd, he⟩ := rx_of_row (op := .haltIgnore) (s := s) (b := b) hst
  exact ⟨hd, he.trans (deliver_halted b hst), rfl⟩

/-! ### ReadPayload -/

/-- Settles O20: the byte is written at `pcount`, which is read back there and leaves every other place alone. -/
theorem rpDataStagesTheByte : Obligations.RpDataStagesTheByte := by
  intro s b hst hn
  obtain ⟨hd, he⟩ := rx_of_row (op := .rpData) (s := s) (b := b) ⟨hst, hn⟩
  refine ⟨hd, rfl, _, he.trans (deliver_data b hst hn), rfl, succ_val hn, ?same, fun j hj => ?other⟩
  case same => exact Vector.getElem_set_self s.pcount.isLt
  case other => exact Vector.getElem_set_ne s.pcount.isLt j.isLt (Fin.val_ne_of_ne hj.symm)

/-- The verdict is the comparison of R87, with the buffer and the transmitted checksum written out. -/
theorem verdict_iff (s : State) (b : Byte) :
    s.verdict b = true ↔ (cks ([0xFA#8, s.idx] ++ (s.packet b).toList.take 18)).setWidth 16 =
      le16 (s.packet b)[18] (s.packet b)[19] :=
  beq_iff_eq

theorem exec_commit_of_verdict {s : State} {b : Byte} (hst : s.st = .readPayload) (hn : s.pcount.val = 19)
    (hv : s.verdict b = true) : exec (.commit b) s = s.lastCommit b :=
  if_pos (decide_eq_true ⟨hst, hn, hv⟩)

theorem exec_drop_of_verdict {s : State} {b : Byte} (hst : s.st = .readPayload) (hn : s.pcount.val = 19)
    (hv : s.verdict b = false) : exec (.drop b) s = s.lastDrop b :=
  if_pos (decide_eq_true ⟨hst, hn, hv⟩)

theorem raises_rpLast (s : State) (b : Byte) :
    raises (.rpLast b) s = if s.verdict b then none else some .checksumMismatch := rfl

/-- Settles O22: the verdict picks the branch of RP.LAST, which is COMMIT or DROP whole. -/
theorem rpLastValidatesAndEndsTheFrame : Obligations.RpLastValidatesAndEndsTheFrame := by
  intro s b hst hn p ok
  obtain ⟨hd, he⟩ := rx_of_row (op := .rpLast) (s := s) (b := b) ⟨hst, hn⟩
  have hlast : exec (.rpLast b) s = if s.verdict b then s.lastCommit b else s.lastDrop b :=
    he.trans (deliver_last b hst hn)
  have hok : ok ↔ s.verdict b = true := (verdict_iff s b).symm
  rw [hlast, raises_rpLast, hok]
  refine ⟨hd, fun hv => ?commits, fun hv hidx => ?commitNext, fun hv => ?drops⟩
  case commits => rw [if_pos hv, if_pos hv, exec_commit_of_verdict hst hn hv]; exact ⟨rfl, rfl⟩
  case commitNext => rw [if_pos hv, lastCommit_next b hidx]; rfl
  case drops =>
    rw [if_neg hv, if_neg hv, exec_drop_of_verdict hst hn (Bool.eq_false_of_not_eq_true hv)]
    exact ⟨rfl, rfl, rfl⟩

/-! ### The consolidated step (R92) -/

/-- The four slot writes with the slot addresses in the form `4m + k` of R92. -/
theorem commitSlots_eq (m : Memory) (idx : Byte) (p : Vector Byte 20) :
    commitSlots m idx p =
      (((m.write (4 * rotationIndex idx) (sampleOf p 0)).write (4 * rotationIndex idx + 1) (sampleOf p 1)).write
        (4 * rotationIndex idx + 2) (sampleOf p 2)).write (4 * rotationIndex idx + 3) (sampleOf p 3) := by
  simp [commitSlots, angleOf, Nat.mul_comm]

theorem consolidatedRx_commit {s : State} {b : Byte} (hst : s.st = .readPayload) (hn : s.pcount.val = 19)
    (hv : s.verdict b = true) : consolidatedRx s b = (s.commit s.idx (s.packet b)).endFrame b := by
  have hlast : ¬ s.pcount.val ≤ 18 := by omega
  have hok := (verdict_iff s b).mp hv
  simp only [State.packet, le16] at hok
  simp only [consolidatedRx, hst, if_neg hlast, if_pos hok]
  rw [State.commit, commitSlots_eq]
  rfl

theorem consolidatedRx_drop {s : State} {b : Byte} (hst : s.st = .readPayload) (hn : s.pcount.val = 19)
    (hv : s.verdict b = false) : consolidatedRx s b = s.drop.endFrame b := by
  have hlast : ¬ s.pcount.val ≤ 18 := by omega
  have hok := (verdict_iff s b).not.mp (by simp [hv])
  simp only [State.packet, le16] at hok
  simp only [consolidatedRx, hst, if_neg hlast, if_neg hok]
  rfl

/-- R92 in place of the table of R66: the step as it is written in one place is the byte delivered. -/
theorem deliver_eq_consolidatedRx {s : State} (hidx : s.st = .readPayload → IsIndex s.idx) (b : Byte) :
    deliver b s = .next (consolidatedRx s b) := by
  obtain ⟨t, ht⟩ := deliver_completes hidx b
  suffices h : consolidatedRx s b = t by rw [ht, h]
  rcases deliver_cases ht with ⟨hst, hb, rfl⟩ | ⟨hst, hb, rfl⟩ | ⟨hst, hb, rfl⟩ | ⟨hst, rfl, rfl⟩ | ⟨hst, hb, hne, rfl⟩ |
    ⟨hst, hn, rfl⟩ | ⟨hst, hn, hv, -, rfl⟩ | ⟨hst, hn, hv, rfl⟩ | ⟨hst, rfl⟩
  · simp [consolidatedRx, hst, hb]
  · simp [consolidatedRx, hst, hb]
  · simp [consolidatedRx, hst, hb.1, hb.2]
  · simp [consolidatedRx, hst]
  · have hindex : ¬ (0xA0#8 ≤ b ∧ b ≤ 0xF9#8) := hb
    simp [consolidatedRx, hst, hindex, hne]
  · simp [consolidatedRx, hst, hn]
  · exact consolidatedRx_commit hst hn hv
  · exact consolidatedRx_drop hst hn hv
  · simp [consolidatedRx, hst]

/-- Settles O7: the step delivers the byte where the event is taken, and what is taken plays no part in a byte. -/
theorem rxStepIsTheConsolidatedStep : Obligations.RxStepIsTheConsolidatedStep := by
  intro s b rest hidx hp
  rw [step_rx s b rest hp, State.taken, deliver_framed, deliver_eq_consolidatedRx hidx b, andThen_next]

end Sys2Proof.Machine
end

section
/-! Whole frames (R60, R61, R76), and how soon the block hunts again (R91). A frame received while hunting is its start
byte, its index byte and its 20 payload bytes; what those leave is one equation, `exec_frame_of_hunting`. -/

namespace Sys2Proof.Machine

open Sys2Proof

/-! ### The payload of a frame -/

/-- The 20 bytes of a frame behind its index byte (R24, R61). -/
def framePayload (f : Frame) : Vector Byte 20 := ⟨(f.bytes.drop 2).toArray, rfl⟩

theorem frame_bytes_eq (f : Frame) : f.bytes = Config.startByte :: f.index :: (framePayload f).toList := rfl

@[simp] theorem speedOf_framePayload (f : Frame) : speedOf (framePayload f) = f.speed := le16_loByte_hiByte f.speed

@[simp] theorem sampleOf_framePayload (f : Frame) (k : Fin 4) : sampleOf (framePayload f) k = frameSample f k := by
  fin_cases k <;> rfl

/-- A frame carries its own right checksum where its payload validates under its index byte (R100, R105). -/
theorem checksumOk_framePayload (f : Frame) : checksumOk f.index (framePayload f) = frameValidates f := by
  have htransmitted : transmittedChecksum (framePayload f) = f.checksum := le16_loByte_hiByte f.checksum
  rw [checksumOk, htransmitted]
  rfl

/-- The checksum buffer of a frame does not reach its checksum bytes, so filling these in makes it validate (R76). -/
theorem frameValidates_mkFrame (i : Byte) (v : Half) (g0 g1 g2 g3 : SampleGroup) :
    frameValidates (mkFrame i v g0 g1 g2 g3) = true :=
  beq_self_eq_true _

/-! ### Receiving a frame -/

/-- From the first payload byte on, 19 bytes of a payload are staged, and the last one makes them the packet that is
validated (R86, R87). -/
theorem exists_staged_packet {s : State} (hst : s.st = .readPayload) (hn : s.pcount.val = 0) (p : Vector Byte 20) :
    ∃ q : Vector Byte 20, q.set 19 p[19] = p ∧
      deliverAll p.toList s = deliver p[19] { s with payload := q, pcount := 19 } := by
  have hsplit : p.toList = p.toList.take 19 ++ [p[19]] := by
    rw [← Vector.getElem_toList (by simp), List.take_append_getElem, List.take_of_length_le (by simp)]
  have hlen : (p.toList.take 19).length = 19 := by simp
  obtain ⟨u, hu, hframe, hcount, -, hstaged⟩ := exists_staged (p.toList.take 19) s hst (by omega)
  have hpcount : u.pcount = 19 := Fin.ext (by rw [hcount, hn, hlen]; rfl)
  refine ⟨u.payload, Vector.ext fun j hj => ?_, ?_⟩
  · rcases Nat.lt_or_eq_of_le (Nat.le_of_lt_succ hj) with hlt | rfl
    · have hbyte := hstaged ⟨j, hj⟩ (by simp [hn]) (by simp only [hlen]; omega)
      rw [Vector.getElem_set_ne (by decide) hj (by omega)]
      simpa [hn, hlt, List.getElem?_take] using hbyte.symm
    · exact Vector.getElem_set_self _
  · rw [hsplit, deliverAll_append, hu, andThen_next, deliverAll_cons, hframe, hpcount]
    exact andThen_next_right _

/-- In both states of hunting the start byte is followed by the wait for an index byte (R81, R84). -/
theorem deliver_startByte {s : State} (hst : s.st = .seekStart ∨ s.st = .readIndex) :
    deliver Config.startByte s = .next { s with st := .readIndex } := by
  rcases hst with hst | hst
  · exact deliver_start hst
  · rw [deliver_restart hst, ← hst]

/-- The state behind a frame received while hunting, but for what its verdict adds. -/
def State.behindFrame (s : State) (f : Frame) : State :=
  { s with st := .seekStart, pcount := 0, idx := f.index, payload := framePayload f }

/-- A frame with an index byte, received while hunting: its commit or its drop, and the end of the frame (R76, R87). -/
theorem exec_frame_of_hunting {s : State} {f : Frame} (hst : s.st = .seekStart ∨ s.st = .readIndex)
    (hidx : IsIndex f.index) :
    exec (.frame f) s = .next (if frameValidates f then (s.behindFrame f).commit f.index (framePayload f)
      else (s.behindFrame f).drop) := by
  obtain ⟨q, hq, hlast⟩ := exists_staged_packet (s := { s with idx := f.index, pcount := 0, st := .readPayload })
    rfl rfl (framePayload f)
  have hverdict : State.verdict { s with idx := f.index, payload := q, pcount := 19, st := .readPayload }
      (framePayload f)[19] = frameValidates f := by
    rw [← checksumOk_framePayload, State.verdict, State.packet, hq]
  rw [exec_frame_eq, frame_bytes_eq, deliverAll_cons, deliver_startByte hst, andThen_next, deliverAll_cons,
    deliver_index rfl hidx, andThen_next, hlast, deliver_last _ rfl rfl, hverdict]
  split
  · rw [lastCommit_next _ hidx]
    simp [State.packet, State.endFrame, State.commit, State.behindFrame, hq]
  · simp [lastDrop_next, State.endFrame, State.drop, State.takeAnomaly, State.behindFrame, hq]

/-- Settles O26: the frame's verdict is its commit, whose slots and speed are those of the frame's payload. -/
theorem aValidFrameIsCommitted : Obligations.AValidFrameIsCommitted := by
  refine ⟨frameValidates_mkFrame, fun s f hst hidx hv => ?_⟩
  refine ⟨(s.behindFrame f).commit f.index (framePayload f), ?executes, ?frame, fun k => ?own, fun a ha => ?other⟩
  case executes => rw [exec_frame_of_hunting hst hidx, if_pos hv]
  case frame => rw [State.commit, speedOf_framePayload]; rfl
  case own => rw [commit_slots, read_commitSlots_own, sampleOf_framePayload]
  case other => exact read_commitSlots_other _ _ _ a fun k hk => ha (hk ▸ angle_div f.index k)

/-! ### Hunting again (R91) -/

/-- The bytes that complete a payload end its frame (R74, R87). -/
theorem seekStart_of_payload_completed {s : State} {bs : List Byte} (hinv : s.Inv) (hst : s.st = .readPayload)
    (hlen : s.pcount.val + bs.length = 20) : ∃ t, deliverAll bs s = .next t ∧ t.st = .seekStart := by
  obtain ⟨t, ht, -, -, hends⟩ := payloadBytesAreNeverFraming s bs hinv hst (Nat.le_of_eq hlen)
  exact ⟨t, ht, hends hlen⟩

/-- Settles O29: no byte in `SeekStart`, the rest of the payload in `ReadPayload`; in `ReadIndex` one byte, or an index
byte and a whole payload. -/
theorem huntingResumesWithin21Bytes : Obligations.HuntingResumesWithin21Bytes := by
  intro s bs hinv hrun hlen hhead
  rcases hst : s.st with _ | _ | _ | _
  case seekStart => exact ⟨0, s, by omega, rfl, hst⟩
  case halted => exact absurd hst hrun
  case readPayload =>
    have htake : (bs.take (20 - s.pcount.val)).length = 20 - s.pcount.val := by rw [List.length_take]; omega
    obtain ⟨t, ht, hends⟩ := seekStart_of_payload_completed hinv hst (bs := bs.take (20 - s.pcount.val)) (by omega)
    exact ⟨_, t, by omega, ht, hends⟩
  case readIndex =>
    obtain ⟨b, bs, rfl⟩ := List.exists_cons_of_length_eq_add_one hlen
    have hb : b ≠ Config.startByte := fun h => hhead hst (congrArg some h)
    by_cases hidx : IsIndex b
    · have hdeliver := deliver_index hst hidx
      have hbs : bs.length = 20 := Nat.succ.inj hlen
      obtain ⟨t, ht, hends⟩ := seekStart_of_payload_completed (inv_of_deliver s _ b hdeliver hinv) rfl
        (bs := bs) (by simp [hbs])
      refine ⟨21, t, le_rfl, ?_, hends⟩
      rw [← hlen, List.take_length, deliverAll_cons, hdeliver, andThen_next, ht]
    · refine ⟨1, { s with st := .seekStart }, by decide, ?_, rfl⟩
      rw [List.take_succ_cons, deliverAll_cons, deliver_abort hst hidx hb, andThen_next]
      rfl

end Sys2Proof.Machine
end

section
/-! The checksum (R101 to R106). Over ten words the accumulator is one exact number, their weighted sum, whatever its
width from 26 bits on; the final fold is then arithmetic on that number. -/

namespace Sys2Proof.Machine

open Sys2Proof

/-! ### The words of a buffer (R100, R101) -/

@[simp] theorem checksumBuf_length (idx : Byte) (p : Vector Byte 20) : (checksumBuf idx p).length = 20 := by
  simp [checksumBuf]

/-- Word `i + 1` of the checksum buffer is the payload's bytes `2i` and `2i + 1`, the first one low. -/
theorem wordsOf_checksumBuf_succ (idx : Byte) (p : Vector Byte 20) (i : Fin 9) :
    (wordsOf (checksumBuf idx p))[i.val + 1]? = some (p[2 * i.val + 1] ++ p[2 * i.val]) := by
  rw [wordsOf_getElem? _ _ (by rw [checksumBuf_length]; omega), le16_append]
  simp [checksumBuf, Nat.mul_add]

/-! ### The fold as an exact sum (R102) -/

/-- The words read as one number, each weighted twice as much as the one behind it. -/
def weightedSum : List Half → Nat
  | [] => 0
  | w :: ws => w.toNat * 2 ^ ws.length + weightedSum ws

theorem weightedSum_le : ∀ ws : List Half, weightedSum ws ≤ 65535 * (2 ^ ws.length - 1)
  | [] => Nat.zero_le _
  | w :: ws => by
    have hw : w.toNat * 2 ^ ws.length ≤ 65535 * 2 ^ ws.length := Nat.mul_le_mul_right _ (Nat.le_of_lt_succ w.isLt)
    have hws := weightedSum_le ws
    have hpos := Nat.two_pow_pos ws.length
    rw [weightedSum, List.length_cons, Nat.pow_succ]
    omega

theorem weightedSum_le_of_length {ws : List Half} (h : ws.length = 10) : weightedSum ws ≤ 67042305 := by
  simpa [h] using weightedSum_le ws

/-- While the accumulator has room for the whole sum, folding more words shifts it past them and adds their sum. -/
theorem foldl_foldStep_toNat {W : Nat} (hW : 16 ≤ W) : ∀ (ws : List Half) (acc : BitVec W),
    acc.toNat * 2 ^ ws.length + weightedSum ws < 2 ^ W →
      (ws.foldl (foldStep W) acc).toNat = acc.toNat * 2 ^ ws.length + weightedSum ws
  | [], acc, _ => by simp [weightedSum]
  | w :: ws, acc, h => by
    have hsum : acc.toNat * 2 ^ (w :: ws).length + weightedSum (w :: ws) =
        (2 * acc.toNat + w.toNat) * 2 ^ ws.length + weightedSum ws := by
      rw [weightedSum, List.length_cons]
      ring
    rw [hsum] at h ⊢
    have hroom : 2 * acc.toNat + w.toNat < 2 ^ W :=
      (Nat.le_mul_of_pos_right _ (Nat.two_pow_pos _)).trans_lt (Nat.lt_of_add_right_lt h)
    have hstep := foldStep_toNat hW acc w hroom
    rw [List.foldl_cons, foldl_foldStep_toNat hW ws _ (by rwa [hstep]), hstep]

/-- Over ten words no accumulator of 26 bits or more overflows (R103). -/
theorem foldWords_toNat {W : Nat} (hW : 26 ≤ W) {ws : List Half} (hlen : ws.length = 10) :
    (foldWords W ws).toNat = weightedSum ws := by
  have hle := weightedSum_le_of_length hlen
  have hroom : 2 ^ 26 ≤ 2 ^ W := Nat.pow_le_pow_right (by decide) hW
  rw [foldWords, foldl_foldStep_toNat (by omega) ws 0#W (by simp; omega)]
  simp

/-- Settles O33: a word is its byte pair, and the fold over ten words is their weighted sum. -/
theorem foldIsTheWeightedSum : Obligations.FoldIsTheWeightedSum := by
  refine ⟨fun buf => ⟨by simp, fun i => ?word⟩,
    fun idx p => ⟨checksumBuf_length idx p, congrArg some (le16_append 0xFA#8 idx), wordsOf_checksumBuf_succ idx p⟩, ?sum⟩
  case word =>
    refine ⟨_, wordsOf_getElem? buf.toList i.val (by simp; omega), ?_⟩
    rw [le16_toNat, Vector.getElem_toList, Vector.getElem_toList]
  case sum =>
    intro w0 w1 w2 w3 w4 w5 w6 w7 w8 w9
    rw [foldWords_toNat (by decide) rfl]
    simp [weightedSum, Nat.add_assoc]

/-! ### The final fold (R104) -/

/-- A number's part from bit 15 up added once to its low 15 bits, in 15 bits. -/
def foldHighOnce (acc : Nat) : Nat := (acc % 2 ^ 15 + acc / 2 ^ 15) % 2 ^ 15

/-- The final fold is this arithmetic in any accumulator of at least 15 bits: the sum may wrap, but not in its low 15
bits. -/
theorem finalFold_toNat {W : Nat} (hW : 15 ≤ W) (acc : BitVec W) : (finalFold acc).toNat = foldHighOnce acc.toNat := by
  have hmask : (BitVec.ofNat W 0x7FFF).toNat = 2 ^ 15 - 1 :=
    Nat.mod_eq_of_lt (Nat.lt_of_lt_of_le (by decide) (Nat.pow_le_pow_right (by decide) hW))
  rw [finalFold, BitVec.toNat_setWidth, BitVec.toNat_add, Nat.mod_mod_of_dvd _ (Nat.pow_dvd_pow 2 hW),
    BitVec.toNat_and, hmask, Nat.and_two_pow_sub_one_eq_mod, BitVec.toNat_ushiftRight, Nat.shiftRight_eq_div_pow]
  rfl

/-- The checksum of ten words, in any accumulator of 26 bits or more. -/
theorem finalFold_foldWords_toNat {W : Nat} (hW : 26 ≤ W) {ws : List Half} (hlen : ws.length = 10) :
    (finalFold (foldWords W ws)).toNat = foldHighOnce (weightedSum ws) := by
  rw [finalFold_toNat (by omega), foldWords_toNat hW hlen]

/-- Settles O34: the fold and the checksum are functions of the weighted sum, in which no width appears. -/
theorem accumulatorWidthDoesNotMatter : Obligations.AccumulatorWidthDoesNotMatter := by
  refine ⟨fun width ws hwidth hlen => ?_, fun cfg s b hwidth => ?_⟩
  · rw [foldWords_toNat hwidth hlen, foldWords_toNat (by decide) hlen]
    exact ⟨weightedSum_le_of_length hlen, rfl⟩
  · have hlen : (wordsOf (checksumBuf s.idx (s.packet b))).length = 10 := by simp
    have hcks : cks (checksumBuf s.idx (s.packet b)) cfg = cks (checksumBuf s.idx (s.packet b)) :=
      BitVec.eq_of_toNat_eq ((finalFold_foldWords_toNat hwidth hlen).trans
        (finalFold_foldWords_toNat (W := 32) (by decide) hlen).symm)
    rw [State.verdict, State.verdict, checksumOk, checksumOk, hcks]

/-- Settles O35: the bounds follow from the bound on the weighted sum. -/
theorem finalFoldAddsTheHighPartOnce : Obligations.FinalFoldAddsTheHighPartOnce := by
  refine ⟨fun ws hlen => ?_, fun _ => rfl⟩
  have hacc : (foldWords 32 ws).toNat ≤ 67042305 :=
    foldWords_toNat (W := 32) (by decide) hlen ▸ weightedSum_le_of_length hlen
  exact ⟨by omega, by omega, finalFold_toNat (by decide) _⟩

/-! ### Errors in the words (R106) -/

/-- Modulo `2 ^ 15` the low part is as good as the whole number. -/
theorem foldHighOnce_eq (acc : Nat) : foldHighOnce acc = (acc + acc / 2 ^ 15) % 2 ^ 15 :=
  Nat.mod_add_mod acc (2 ^ 15) (acc / 2 ^ 15)

/-- A change below bit 15 moves the folded sum by itself, and by one more where it carries into bit 15. -/
theorem foldHighOnce_add_low_ne (acc : Nat) {d : Nat} (hpos : 0 < d) (hlt : d < 2 ^ 15 - 1) :
    foldHighOnce (acc + d) ≠ foldHighOnce acc := by
  have hcarry : (acc + d) / 2 ^ 15 = acc / 2 ^ 15 ∨ (acc + d) / 2 ^ 15 = acc / 2 ^ 15 + 1 := by omega
  rw [foldHighOnce_eq, foldHighOnce_eq]
  rcases hcarry with h | h <;> rw [h] <;> omega

/-- A change from bit 15 up moves the high part alone. -/
theorem foldHighOnce_add_high_ne (acc : Nat) {d : Nat} (hpos : 0 < d) (hlt : d < 2 ^ 15) :
    foldHighOnce (acc + d * 2 ^ 15) ≠ foldHighOnce acc := by
  rw [foldHighOnce_eq, foldHighOnce_eq, Nat.add_mul_div_right _ _ (Nat.two_pow_pos 15)]
  omega

theorem foldHighOnce_add_two_pow_ne (acc : Nat) {m : Nat} (hm : m ≤ 24) :
    foldHighOnce (acc + 2 ^ m) ≠ foldHighOnce acc := by
  have hpos := Nat.two_pow_pos
  rcases Nat.lt_or_ge m 15 with hlow | hhigh
  · have hle : 2 ^ m ≤ 2 ^ 14 := Nat.pow_le_pow_right (by decide) (by omega)
    exact foldHighOnce_add_low_ne acc (hpos m) (by omega)
  · obtain ⟨k, rfl⟩ := Nat.exists_eq_add_of_le' hhigh
    rw [Nat.pow_add]
    exact foldHighOnce_add_high_ne acc (hpos k) (Nat.pow_lt_pow_right (by decide) (by omega))

/-- Changing word `i` changes the sum by the change of the word, at the word's weight. -/
theorem weightedSum_modify (f : Half → Half) : ∀ {ws : List Half} {i : Nat} (h : i < ws.length),
    weightedSum (ws.modify i f) + ws[i].toNat * 2 ^ (ws.length - 1 - i) =
      weightedSum ws + (f ws[i]).toNat * 2 ^ (ws.length - 1 - i)
  | w :: ws, 0, _ => by
    simp only [List.modify_zero_cons, weightedSum, List.getElem_cons_zero, List.length_cons, Nat.add_sub_cancel,
      Nat.sub_zero]
    omega
  | w :: ws, i + 1, h => by
    have ih := weightedSum_modify f (Nat.lt_of_succ_lt_succ h)
    have hweight : (w :: ws).length - 1 - (i + 1) = ws.length - 1 - i := by
      rw [List.length_cons]
      omega
    rw [hweight, List.modify_succ_cons, weightedSum, weightedSum, List.length_modify, List.getElem_cons_succ]
    omega

/-- Flipping a clear bit adds its value. -/
theorem flipBit_toNat_of_clear {w : Half} {j : Nat} (hj : j < 16) (h : w.getLsbD j = false) :
    (w ^^^ (1#16 <<< j)).toNat = w.toNat + 2 ^ j := by
  rw [← BitVec.twoPow_eq]
  have hand : w &&& BitVec.twoPow 16 j = 0#16 := by simp [BitVec.and_twoPow, h]
  have hxor : w ^^^ BitVec.twoPow 16 j = w + BitVec.twoPow 16 j := by
    rw [BitVec.add_eq_or_of_and_eq_zero _ _ hand]
    ext k hk
    rcases eq_or_ne k j with rfl | hkj
    · have hclear : w[k] = false := h
      simp [hclear]
    · simp [hkj]
  rw [hxor, BitVec.toNat_add_of_and_eq_zero hand, BitVec.toNat_twoPow_of_lt hj]

/-- Flipping a bit adds its value or takes it away. -/
theorem flipBit_toNat (w : Half) {j : Nat} (hj : j < 16) :
    (w ^^^ (1#16 <<< j)).toNat = w.toNat + 2 ^ j ∨ w.toNat = (w ^^^ (1#16 <<< j)).toNat + 2 ^ j := by
  cases h : w.getLsbD j with
  | false => exact .inl (flipBit_toNat_of_clear hj h)
  | true =>
    have hclear : (w ^^^ (1#16 <<< j)).getLsbD j = false := by simp [h, hj]
    have hback := flipBit_toNat_of_clear hj hclear
    rw [BitVec.xor_assoc, BitVec.xor_self, BitVec.xor_zero] at hback
    exact .inr hback

/-- Flipping bit `j` of word `i` moves the weighted sum by the bit's value at the word's weight. -/
theorem weightedSum_flipBit {ws : List Half} {i j : Nat} (hi : i < ws.length) (hj : j < 16) :
    let flipped := weightedSum (ws.modify i fun w => w ^^^ (1#16 <<< j))
    let moved := 2 ^ (j + (ws.length - 1 - i))
    flipped = weightedSum ws + moved ∨ weightedSum ws = flipped + moved := by
  have hsum := weightedSum_modify (fun w => w ^^^ (1#16 <<< j)) hi
  rcases flipBit_toNat ws[i] hj with hflip | hflip <;> rw [hflip, Nat.add_mul, ← Nat.pow_add] at hsum
  · left; omega
  · right; omega

/-- Settles O36: a flipped bit moves the weighted sum by a power of two up to `2 ^ 24`, and no such move, up or down,
leaves the folded sum as it was. -/
theorem everySingleBitErrorChangesTheChecksum : Obligations.EverySingleBitErrorChangesTheChecksum := by
  intro ws i j hlen heq
  have hi : i.val < ws.length := by omega
  have hm : j.val + (ws.length - 1 - i.val) ≤ 24 := by omega
  have hfold := congrArg BitVec.toNat heq
  rw [finalFold_foldWords_toNat (by decide) (by rw [List.length_modify, hlen]),
    finalFold_foldWords_toNat (by decide) hlen] at hfold
  rcases weightedSum_flipBit hi j.isLt with hup | hdown
  · exact foldHighOnce_add_two_pow_ne _ hm (hup ▸ hfold)
  · exact foldHighOnce_add_two_pow_ne _ hm (hdown ▸ hfold.symm)

/-- Settles O37, by the frame of R106 item 2: the two flips change its weighted sum by `2 ^ 8` and by `-4 * 2 ^ 6`. -/
theorem someDoubleErrorsAreNotDetected : Obligations.SomeDoubleErrorsAreNotDetected :=
  ⟨mkFrame 0xA0#8 0x1000#16 ⟨0x34#8, 0x02#8, 0x05#8, 0x00#8⟩ ⟨0#8, 0#8, 0#8, 0#8⟩ ⟨0#8, 0#8, 0#8, 0#8⟩
    ⟨0#8, 0#8, 0#8, 0#8⟩, _, rfl, frameValidates_mkFrame .., by decide, by decide⟩

end Sys2Proof.Machine
end

section
/-! The fields of a packet (R111 to R115): byte pairs as numbers, the two reserved bits of a distance, the angles of the
index bytes, and the binary64 word of the speed. -/

namespace Sys2Proof.Machine

open Sys2Proof

/-! ### Distances (R70, R113) -/

/-- The distance is `{x1[5:0], x0}`, zero-extended. -/
theorem distance_eq_append (x0 x1 : Byte) : distance x0 x1 = (x1.extractLsb' 0 6 ++ x0).setWidth 16 := by
  have hlo := x0.isLt
  have happend : (x1.extractLsb' 0 6 ++ x0).toNat = x0.toNat + 256 * (x1.toNat % 64) := by
    rw [BitVec.toNat_append, ← Nat.shiftLeft_add_eq_or_of_lt hlo, Nat.shiftLeft_eq, BitVec.extractLsb'_toNat,
      Nat.shiftRight_zero]
    omega
  apply BitVec.eq_of_toNat_eq
  rw [distance_toNat, BitVec.toNat_setWidth, happend]
  omega

/-- The two reserved bits of `x1` never reach the distance. -/
theorem distance_reserved (x0 x1 : Byte) (r : BitVec 2) : distance x0 (r ++ x1.extractLsb' 0 6) = distance x0 x1 := by
  rw [distance_eq_append, BitVec.extractLsb'_append_eq_right, ← distance_eq_append]

theorem distance_le (x0 x1 : Byte) : distance x0 x1 ≤ 0x3FFF#16 := by
  have h0 := x0.isLt
  rw [BitVec.le_def, distance_toNat, BitVec.toNat_ofNat]
  omega

/-- Settles O39: every field is a little-endian byte pair, the distance's high byte without its two reserved bits. -/
theorem fieldsAreAssembledFromTheirBytes : Obligations.FieldsAreAssembledFromTheirBytes :=
  ⟨fun x0 x1 => ⟨distance_toNat x0 x1, distance_eq_append x0 x1, distance_le x0 x1, distance_reserved x0 x1⟩,
    fun x2 x3 => ⟨le16_toNat x2 x3, le16_append x2 x3⟩, fun p => ⟨le16_toNat p[0] p[1], le16_append p[0] p[1]⟩,
    fun _ _ => rfl⟩

/-! ### Angles (R115) -/

theorem angle_mod (idx : Byte) (k : Fin 4) : angleOf idx k % 4 = k.val := by
  have := k.isLt
  simp only [angleOf]; omega

/-- Every group number below 90 is that of an index byte (R41, R62). -/
theorem exists_index_of_rotationIndex {m : Nat} (h : m < 90) : ∃ idx : Byte, IsIndex idx ∧ rotationIndex idx = m := by
  have hval : (BitVec.ofNat 8 (160 + m)).toNat = 160 + m := Nat.mod_eq_of_lt (by omega)
  exact ⟨BitVec.ofNat 8 (160 + m), (isIndex_iff _).mpr (by omega), by rw [rotationIndex_eq]; omega⟩

/-- An angle determines its index byte, by its quotient, and its place in the group, by its remainder. -/
theorem index_place_eq_of_angleOf_eq {i j : Byte} {k l : Fin 4} (hi : IsIndex i) (hj : IsIndex j)
    (h : angleOf i k = angleOf j l) : i = j ∧ k = l :=
  ⟨rot_inj hi hj (by rw [← angle_div i k, ← angle_div j l, h]), Fin.ext (by rw [← angle_mod i k, ← angle_mod j l, h])⟩

/-- Settles O40: an angle is its group number times four plus its place in the group, and division by four takes it
apart again. -/
theorem anglesPartitionTheTable : Obligations.AnglesPartitionTheTable := by
  refine ⟨fun idx k hidx => ?bounds, fun a ha => ?partition⟩
  case bounds =>
    have hlt : angleOf idx k < 360 := angleOf_lt hidx k
    exact ⟨angleOf_val idx k, hlt, angle_div idx k, angle_mod idx k, Nat.mod_eq_of_lt hlt⟩
  case partition =>
    obtain ⟨idx, hidx, hrot⟩ := exists_index_of_rotationIndex (m := a / 4) (by omega)
    obtain ⟨k, rfl⟩ := exists_angleOf hrot.symm
    exact ⟨idx, k, hidx, rfl, fun _ _ hidx' => index_place_eq_of_angleOf_eq hidx' hidx⟩

/-! ### The speed as a binary64 word (R112) -/

/-- What a normal binary64 word with sign 0 is worth: its exponent field `x` and fraction field `f` do not overlap. -/
theorem binary64Value_of_fields {x f : Nat} (hpos : 0 < x) (hx : x < 2 ^ 11) (hf : f < 2 ^ 52) :
    binary64Value (BitVec.ofNat 64 (x * 2 ^ 52 + f)) = (1 + f / (2 : Rat) ^ 52) * (2 : Rat) ^ ((x : Int) - 1023) := by
  have hval : (BitVec.ofNat 64 (x * 2 ^ 52 + f)).toNat = x * 2 ^ 52 + f := by
    rw [BitVec.toNat_ofNat]
    omega
  have hfrac : ((BitVec.ofNat 64 (x * 2 ^ 52 + f)).extractLsb' 0 52).toNat = f := by
    rw [BitVec.extractLsb'_toNat, hval, Nat.shiftRight_zero]
    omega
  have hexp : ((BitVec.ofNat 64 (x * 2 ^ 52 + f)).extractLsb' 52 11).toNat = x := by
    rw [BitVec.extractLsb'_toNat, hval, Nat.shiftRight_eq_div_pow]
    omega
  have hne : BitVec.ofNat 64 (x * 2 ^ 52 + f) ≠ 0#64 := fun h => by
    have hzero := congrArg BitVec.toNat h
    rw [hval, BitVec.toNat_zero] at hzero
    omega
  rw [binary64Value, if_neg hne, hfrac, hexp]

theorem rpmBinary64_of_ne_zero {raw : Half} (h : raw.toNat ≠ 0) :
    rpmBinary64 raw = BitVec.ofNat 64 ((raw.toNat.log2 + 1017) * 2 ^ 52 +
      (raw.toNat - 2 ^ raw.toNat.log2) * 2 ^ (52 - raw.toNat.log2)) := if_neg h

/-- The fraction `n - 2 ^ e` of a number with leading bit `e`, scaled to 52 bits, fits the fraction field. -/
theorem scaled_fraction_lt {n e : Nat} (he : e ≤ 52) (hlt : n < 2 ^ (e + 1)) : (n - 2 ^ e) * 2 ^ (52 - e) < 2 ^ 52 := by
  have hfrac : n - 2 ^ e < 2 ^ e := by omega
  calc (n - 2 ^ e) * 2 ^ (52 - e) < 2 ^ e * 2 ^ (52 - e) := Nat.mul_lt_mul_of_pos_right hfrac (Nat.two_pow_pos _)
    _ = 2 ^ 52 := by rw [← pow_add, Nat.add_sub_cancel' he]

/-- The scaled fraction with the exponent `e - 6` is worth exactly `n / 64`. -/
theorem scaled_fraction_value {n e : Nat} (he : e ≤ 52) (hle : 2 ^ e ≤ n) :
    (1 + ((n - 2 ^ e) * 2 ^ (52 - e) : Nat) / (2 : Rat) ^ 52) * (2 : Rat) ^ (((e + 1017 : Nat) : Int) - 1023) = n / 64 := by
  have hscale : (2 : Rat) ^ 52 = 2 ^ e * 2 ^ (52 - e) := by rw [← pow_add, Nat.add_sub_cancel' he]
  have hexp : (2 : Rat) ^ (((e + 1017 : Nat) : Int) - 1023) = 2 ^ e / 64 := by
    rw [show ((e + 1017 : Nat) : Int) - 1023 = (e : Int) - 6 by omega, zpow_sub₀ (by decide), zpow_natCast]
    norm_num
  rw [hscale, hexp]
  push_cast [hle]
  field_simp
  ring

/-- Settles O41: the leading bit of a raw speed is below bit 16, so its fraction fits 52 bits and no bit is rounded
away. -/
theorem rpmBinary64IsExact : Obligations.RpmBinary64IsExact := by
  intro raw
  by_cases h : raw.toNat = 0
  case pos => simp [rpmBinary64, binary64Value, rpm, h]
  case neg =>
    have he : raw.toNat.log2 < 16 := (Nat.log2_lt h).mpr raw.isLt
    have hfrac := scaled_fraction_lt (by omega) (Nat.lt_log2_self (n := raw.toNat))
    rw [rpmBinary64_of_ne_zero h, binary64Value_of_fields (by omega) (by omega) hfrac,
      scaled_fraction_value (by omega) (Nat.log2_self_le h), rpm]

end Sys2Proof.Machine
end

section
/-! The scan writer (R120 to R126): what COMMIT and DROP leave behind, and what one frame or a run of frames leaves in
the table. A run of frames is its frames in turn, each of which is a commit (`aValidFrameIsCommitted`). -/

namespace Sys2Proof.Machine

open Sys2Proof

/-! ### Commit and drop -/

/-- Settles O24: the slots behind the commit are those of `commitSlots`, whose addresses are `angleOf` in the form
`4m + k`. -/
theorem commitWritesFourSlotsAndTheSpeed : Obligations.CommitWritesFourSlotsAndTheSpeed := by
  intro s b hst hn hv hidx p m
  refine ⟨rfl, (s.commit s.idx p).endFrame b, ?executes, rfl, rfl, fun k => ?own, fun a ha => ?other⟩
  case executes => rw [exec_commit_of_verdict hst hn hv, lastCommit_next b hidx]; rfl
  case own =>
    have haddress : 4 * m + k.val = angleOf s.idx k := congrArg (· + k.val) (Nat.mul_comm 4 m)
    rw [haddress]
    exact read_commitSlots_own s.slots s.idx p k
  case other => exact read_commitSlots_other _ _ _ a fun k hk => ha (hk ▸ angle_div s.idx k)

/-- Settles O25: DROP is RP.LAST's drop, and the saturating count is read as a number. -/
theorem dropCountsOneErrorAndPublishesNothing : Obligations.DropCountsOneErrorAndPublishesNothing := by
  intro s b hst hn hv
  have hcount : saturatingSucc s.errCount = if s.errCount.toNat = 2 ^ 64 - 1 then s.errCount else s.errCount + 1 :=
    saturatingSucc_eq (cfg := Config.block) (by decide) s.errCount
  refine ⟨rfl, ?_⟩
  rw [exec_drop_of_verdict hst hn hv, lastDrop_next, ← hcount]
  rfl

/-! ### One frame and two -/

/-- Settles O27: the frame's verdict is its drop. -/
theorem aFrameThatDoesNotValidateIsDropped : Obligations.AFrameThatDoesNotValidateIsDropped := by
  intro s f hst hidx hv
  refine ⟨(s.behindFrame f).drop, ?_, rfl⟩
  rw [exec_frame_of_hunting hst hidx, if_neg (by simp [hv])]

/-- The angles of an index byte lie outside the group of any other (R115). -/
theorem angle_div_ne {i j : Byte} (hi : IsIndex i) (hj : IsIndex j) (hne : i ≠ j) (k : Fin 4) :
    angleOf i k / 4 ≠ rotationIndex j :=
  fun h => hne (rot_inj hi hj ((angle_div i k).symm.trans h))

/-- Settles O31: the second commit writes the speed and its own group, and leaves the first's where that is another. -/
theorem theLaterFrameWins : Obligations.TheLaterFrameWins := by
  intro s f g hst hf hg hvf hvg
  obtain ⟨u, hu, hframe, hownf, hotherf⟩ := aValidFrameIsCommitted.2 s f (.inl hst) hf hvf
  obtain ⟨t, ht, hframe', howng, hotherg⟩ := aValidFrameIsCommitted.2 u g (.inl (by rw [hframe])) hg hvg
  refine ⟨t, by rw [hu, andThen_next, ht], by rw [hframe'], howng, fun hne k => ?first, fun a haf hag => ?neither⟩
  case first => rw [hotherg _ (angle_div_ne hf hg hne k), hownf]
  case neither => rw [hotherg a hag, hotherf a haf]

/-! ### A run of frames -/

/-- Validated frames with distinct indices, received one after the other, each stand in their own slots behind the run,
and every other slot is as it was (R120, R126). -/
theorem exists_frames_committed : ∀ (fs : List Frame) {s : State}, s.st = .seekStart →
    (∀ f ∈ fs, IsIndex f.index ∧ frameValidates f = true) → (fs.map fun f => f.index).Nodup →
    ∃ t, deliverAll (fs.flatMap fun f => f.bytes) s = .next t ∧
      (∀ f ∈ fs, ∀ k : Fin 4, t.slots.read (angleOf f.index k) = some (frameSample f k)) ∧
      (∀ a, (∀ f ∈ fs, a / 4 ≠ rotationIndex f.index) → t.slots.read a = s.slots.read a)
  | [], s, _, _, _ => ⟨s, rfl, nofun, fun _ _ => rfl⟩
  | f :: fs, s, hst, hvalid, hdistinct => by
    obtain ⟨⟨hidx, hv⟩, hvalid⟩ := List.forall_mem_cons.mp hvalid
    obtain ⟨hfirst, hdistinct⟩ := List.nodup_cons.mp hdistinct
    obtain ⟨u, hu, hframe, hownf, hotherf⟩ := aValidFrameIsCommitted.2 s f (.inl hst) hidx hv
    obtain ⟨t, ht, hown, hother⟩ := exists_frames_committed fs (s := u) (by rw [hframe]) hvalid hdistinct
    refine ⟨t, ?delivers, List.forall_mem_cons.mpr ⟨fun k => ?first, hown⟩, fun a ha => ?other⟩
    case delivers => rw [List.flatMap_cons, deliverAll_append, ← exec_frame_eq, hu, andThen_next, ht]
    case first =>
      have houtside : ∀ g ∈ fs, angleOf f.index k / 4 ≠ rotationIndex g.index := fun g hg =>
        angle_div_ne hidx (hvalid g hg).1 (fun h => hfirst (List.mem_map.mpr ⟨g, hg, h.symm⟩)) k
      rw [hother _ houtside, hownf]
    case other =>
      obtain ⟨haf, ha⟩ := List.forall_mem_cons.mp ha
      rw [hother a ha, hotherf a haf]

/-! ### The angles of a list of indices -/

/-- The four angles of each index byte of a list (R115). -/
def anglesOf (is : List Byte) : List Nat := (is ×ˢ List.finRange 4).map fun x => angleOf x.1 x.2

@[simp] theorem anglesOf_length (is : List Byte) : (anglesOf is).length = 4 * is.length := by
  rw [anglesOf, List.length_map, List.length_product, List.length_finRange, Nat.mul_comm]

theorem mem_anglesOf {is : List Byte} {a : Nat} : a ∈ anglesOf is ↔ ∃ i ∈ is, ∃ k, angleOf i k = a := by
  simp [anglesOf, List.mem_product]

theorem nodup_anglesOf {is : List Byte} (hidx : ∀ i ∈ is, IsIndex i) (h : is.Nodup) : (anglesOf is).Nodup := by
  refine (h.product (List.nodup_finRange 4)).map_on fun x hx y hy hxy => ?_
  obtain ⟨hindex, hplace⟩ := index_place_eq_of_angleOf_eq (hidx _ (List.mem_product.mp hx).1)
    (hidx _ (List.mem_product.mp hy).1) hxy
  exact Prod.ext hindex hplace

/-- Where the set slots are the angles of distinct index bytes, there are four to each (R126). -/
theorem setCount_of_anglesOf {t : State} {is : List Byte} (hidx : ∀ i ∈ is, IsIndex i) (h : is.Nodup)
    (hset : ∀ a, t.slotSet a = true ↔ a ∈ anglesOf is) : t.setCount = 4 * is.length := by
  have hlt : ∀ a ∈ anglesOf is, a < Config.nSlots := fun a ha => by
    obtain ⟨i, hi, k, rfl⟩ := mem_anglesOf.mp ha
    exact angleOf_lt (hidx i hi) k
  have hperm : ((List.range Config.nSlots).filter fun a => t.slotSet a).Perm (anglesOf is) :=
    (List.perm_ext_iff_of_nodup (List.nodup_range.filter _) (nodup_anglesOf hidx h)).mpr fun a => by
      rw [List.mem_filter, List.mem_range, hset]
      exact and_iff_right_of_imp (hlt a)
  rw [State.setCount, hperm.length_eq, anglesOf_length]

/-- A table with 360 slots set has every slot set. -/
theorem slotSet_of_setCount {t : State} (h : t.setCount = 360) {a : Nat} (ha : a < 360) : t.slotSet a = true :=
  List.length_filter_eq_length_iff.mp (h.trans List.length_range.symm) a (List.mem_range.mpr ha)

/-- Settles O32: behind the run the set slots are the angles of the frames' indices. -/
theorem framesOfDistinctIndicesCoverTheirAngles : Obligations.FramesOfDistinctIndicesCoverTheirAngles := by
  intro fs s hst hempty hvalid hdistinct
  obtain ⟨t, ht, hown, hother⟩ := exists_frames_committed fs hst hvalid hdistinct
  have hset : ∀ a, t.slotSet a = true ↔ a ∈ anglesOf (fs.map fun f => f.index) := fun a => by
    rw [mem_anglesOf]
    refine ⟨fun ha => ?_, fun ⟨i, hi, k, hk⟩ => ?_⟩
    · by_contra hnone
      have houtside : ∀ f ∈ fs, a / 4 ≠ rotationIndex f.index := fun f hf hdiv =>
        hnone ⟨f.index, List.mem_map_of_mem hf, (exists_angleOf hdiv).imp fun _ => Eq.symm⟩
      simp [State.slotSet, hother a houtside, hempty a] at ha
    · obtain ⟨f, hf, rfl⟩ := List.mem_map.mp hi
      simp [State.slotSet, ← hk, hown f hf k]
  have hcount : t.setCount = 4 * fs.length :=
    (setCount_of_anglesOf (List.forall_mem_map.mpr fun f hf => (hvalid f hf).1) hdistinct hset).trans (by simp)
  exact ⟨t, ht, hown, hcount, fun hlen a ha => slotSet_of_setCount (by rw [hcount, hlen]) ha⟩

end Sys2Proof.Machine
end

section
/-! The consumer reads (R130 to R134): what each returns and the anomaly it does not raise. That a read writes nothing
else (R49) is in the equation of its operation. -/

namespace Sys2Proof.Machine

open Sys2Proof

/-! ### The three reads -/

theorem exec_snapshot_eq (s : State) : exec .snapshot s = .next { s with out := some (.snapshot (snapshotOf s.slots)) } :=
  rfl

theorem exec_speed_eq (s : State) : exec .speed s = .next { s with out := some (.speed s.speedRaw) } := rfl

theorem exec_errcnt_eq (s : State) : exec .errcnt s = .next { s with out := some (.errCount s.errCount) } := rfl

/-- Only bytes and RXFAIL raise an anomaly (R150, R158). -/
theorem raises_of_consumer {i : Instr} (hi : i.role = .consumer) (s : State) : raises i s = none := by
  cases i with
  | snapshot | speed | errcnt => rfl
  | _ => exact nomatch hi

/-! ### The entries of a snapshot -/

@[simp] theorem snapshotOf_length (m : Memory) : (snapshotOf m).length = 360 := by
  rw [snapshotOf, List.length_map, List.length_range]

theorem getElem?_snapshotOf (m : Memory) {a : Nat} (ha : a < 360) : (snapshotOf m)[a]? = some (shown (m.read a)) := by
  rw [snapshotOf, List.getElem?_map, List.getElem?_range ha, Option.map_some]

/-- Settles O42: the entry of an angle is what a consumer is shown of its slot, set or unset (R131). -/
theorem snapshotReturnsAll360Slots : Obligations.SnapshotReturnsAll360Slots := by
  intro s
  refine ⟨raises_of_consumer rfl s, snapshotOf s.slots, exec_snapshot_eq s, snapshotOf_length s.slots, fun a ha => ?entry⟩
  case entry =>
    rw [getElem?_snapshotOf s.slots ha]
    cases s.slots.read a with
    | none => rfl
    | some v => rfl

/-- Settles O43: `rpm` is by definition the raw speed over 64 (R112), and reset gives `SPEED_RESET` (R32). -/
theorem speedReturnsTheRawSpeed : Obligations.SpeedReturnsTheRawSpeed := by
  obtain ⟨-, -, hspeed, -⟩ := resetStateHasTheSpecValues
  exact ⟨fun s => ⟨exec_speed_eq s, raises_of_consumer rfl s, rfl⟩, hspeed⟩

/-- Settles O44: the count is returned and not written. -/
theorem errcntReturnsTheErrorCount : Obligations.ErrcntReturnsTheErrorCount :=
  fun s => ⟨exec_errcnt_eq s, raises_of_consumer rfl s⟩

end Sys2Proof.Machine
end

section
/-! The lifecycle (R140 to R143): what RESET, CLOSE and RXFAIL leave behind and raise, and that in `Halted` no other
operation than RESET does more than return a value. -/

namespace Sys2Proof.Machine

open Sys2Proof

/-! ### Halted -/

/-- In `Halted` bytes, CLOSE and RXFAIL do nothing, and a consumer's read writes what it returns (R143). -/
theorem eq_with_out_of_halted {i : Instr} {s t : State} (hst : s.st = .halted) (hreset : i ≠ .reset)
    (h : exec i s = .next t) : t = { s with out := t.out } := by
  cases effect_of_exec h with
  | reset => exact absurd rfl hreset
  | ssStart hrow | ssSkip _ hrow | riIndex _ hrow | riRestart hrow | riAbort _ hrow | rpData _ hrow
  | rpLastCommit _ hrow | commit _ hrow | rpLastDrop _ hrow | drop _ hrow => exact nomatch hst.symm.trans hrow
  | rxfailRunning hrun | closeRunning hrun => exact absurd hst hrun
  | frame _ hbs | sample _ hbs => rw [deliverAll_halted _ s hst] at hbs; cases hbs; rfl
  | haltIgnore | rxfailHalted | closeHalted | snapshot | speed | errcnt => rfl

/-- Settles O50: a wire form is a run of bytes, each of which is ignored. -/
theorem nothingChangesInHalted : Obligations.NothingChangesInHalted :=
  ⟨fun _ _ _ => eq_with_out_of_halted,
    fun f g s hst => ⟨deliverAll_halted f.bytes s hst, deliverAll_halted g.bytes s hst⟩⟩

/-! ### RESET -/

theorem exec_reset_eq (s : State) :
    exec .reset s = .next
      { s with st := .seekStart, slots := Memory.cleared, speedRaw := 0#16, errCount := 0#64, haltCause := .none,
               idx := Config.freeIdx s.draws, pcount := Config.freePcount s.draws,
               payload := Config.freePayload s.draws, draws := s.draws + 1 } := rfl

theorem reset_of_leaves_halted {i : Instr} {s t : State} (h : exec i s = .next t) (hst : s.st = .halted)
    (hleaves : t.st ≠ .halted) : i = .reset := by
  by_contra hreset
  have hsame := eq_with_out_of_halted hst hreset h
  exact hleaves ((congrArg State.st hsame).trans hst)

/-- Settles O46: a cleared table reads as unset at every angle, and no operation but RESET writes `st` in `Halted`. -/
theorem resetEventClearsTheBlock : Obligations.ResetEventClearsTheBlock :=
  ⟨fun s => ⟨_, exec_reset_eq s, rfl, fun a => ⟨read_cleared a, congrArg Option.isSome (read_cleared a)⟩,
      rfl, rfl, rfl, rfl, rfl, rfl⟩,
    fun _ _ _ => reset_of_leaves_halted⟩

/-! ### CLOSE and RXFAIL -/

/-- Settles O48: `Closed` is not the cause that `io_fail` shows (R30). -/
theorem closeHaltsARunningBlock : Obligations.CloseHaltsARunningBlock :=
  fun _ => ⟨fun hrun => ⟨exec_close_running hrun, rfl⟩, exec_close_halted, rfl⟩

theorem raises_rxfail_running {s : State} (h : s.st ≠ .halted) : raises .rxfail s = some .ioFailure := if_neg h

theorem raises_rxfail_halted {s : State} (h : s.st = .halted) : raises .rxfail s = none := if_pos h

/-- Settles O49: a running block takes the anomaly IoFailure, whose whole effect is the halt and its cause (R154). -/
theorem rxfailHaltsWithIoFailure : Obligations.RxfailHaltsWithIoFailure :=
  fun _ => ⟨fun hrun => ⟨raises_rxfail_running hrun, exec_rxfail_running hrun, rfl⟩,
    fun hst => ⟨raises_rxfail_halted hst, exec_rxfail_halted hst⟩⟩

end Sys2Proof.Machine
end

section
/-! The anomalies (R150 to R159) and coincident events (R157): an anomaly's whole effect, and what two events of
different agents leave behind in the orders the spec allows. -/

namespace Sys2Proof.Machine

open Sys2Proof

/-! ### The effect of an anomaly -/

/-- An anomaly's effect on the state is the whole effect of the operation that raises it (R151, R152, R154), but a
frame that ends in a drop is also ended (R153, R87). -/
def Anomaly.OwnEffect (i : Instr) (s t : State) : Anomaly → Prop
  | .checksumMismatch => ∃ b, (i = .rpLast b ∨ i = .drop b) ∧ t = s.drop.endFrame b
  | a => t = s.takeAnomaly a

theorem ownEffect_of_raises {i : Instr} {s t : State} {a : Anomaly} (h : exec i s = .next t)
    (hr : raises i s = some a) : a.OwnEffect i s t := by
  cases effect_of_exec h with
  | ssSkip | riAbort => cases hr; rfl
  | rpLastCommit b _ _ hv => rw [raises_rpLast, if_pos hv] at hr; cases hr
  | rpLastDrop b _ _ hv => rw [raises_rpLast, if_neg (by simp [hv])] at hr; cases hr; exact ⟨b, .inl rfl, rfl⟩
  | drop b => cases hr; exact ⟨b, .inr rfl, rfl⟩
  | rxfailRunning hst => rw [raises_rxfail_running hst] at hr; cases hr; rfl
  | rxfailHalted hst => rw [raises_rxfail_halted hst] at hr; cases hr
  | _ => cases hr

/-- Settles O54: the clauses are the anomalies' effects written out. -/
theorem anomaliesHaveTheirOwnEffectOnly : Obligations.AnomaliesHaveTheirOwnEffectOnly :=
  fun _ _ _ h => ⟨ownEffect_of_raises h, ownEffect_of_raises h, ownEffect_of_raises h, ownEffect_of_raises h⟩

/-! ### Which order the spec allows -/

theorem eventKindOf_eq_reset_iff (i : Instr) : eventKindOf i = .reset ↔ i = .reset := by
  cases i <;> simp [eventKindOf]

/-- A read may stand on either side of every event but RESET, which comes last. -/
theorem mayPrecede_of_consumer {i : Instr} (hi : i.role = .consumer) {k : EventKind} (hk : k ≠ .reset) :
    mayPrecede k (eventKindOf i) = true ∧ mayPrecede (eventKindOf i) k = true := by
  cases i with
  | snapshot | speed | errcnt => cases k with
    | reset => exact absurd rfl hk
    | _ => exact ⟨rfl, rfl⟩
  | _ => exact nomatch hi

theorem mayPrecede_reset {k : EventKind} (hk : k ≠ .reset) :
    mayPrecede .reset k = false ∧ mayPrecede k .reset = true := by
  cases k with
  | reset => exact absurd rfl hk
  | _ => exact ⟨rfl, rfl⟩

/-! ### What the second event finds -/

/-- What a read returned before a byte stands behind it as well, and plays no part in it. -/
theorem deliver_with_out (b : Byte) (s : State) (o : Option Output) :
    deliver b { s with out := o } = andThen (deliver b s) fun t => .next { t with out := o } := by
  have hframed := deliver_framed b s s.pending o
  cases h : deliver b s with
  | next t => simpa [h, ← (sameOutside_of_deliver s t b h).pending] using hframed
  | fault | refused => simpa [h] using hframed

/-- CLOSE and RXFAIL leave the block halted with some cause, and nothing else of it changed (R141, R142). -/
theorem exec_of_halting {i : Instr} (hi : i = .close ∨ i = .rxfail) (s : State) :
    ∃ c, ∀ o, exec i { s with out := o } = .next { s with st := .halted, haltCause := c, out := o } := by
  by_cases hst : s.st = .halted
  · refine ⟨s.haltCause, fun o => ?_⟩
    rw [← hst]
    rcases hi with rfl | rfl
    · exact exec_close_halted hst
    · exact exec_rxfail_halted hst
  · rcases hi with rfl | rfl
    · exact ⟨.closed, fun _ => exec_close_running hst⟩
    · exact ⟨.ioFailure, fun _ => exec_rxfail_running hst⟩

/-- A read returns the same value from states with the same table, speed and error count (R130, R133, R134). -/
theorem exec_of_consumer_congr {i : Instr} (hi : i.role = .consumer) {s t : State} (hslots : t.slots = s.slots)
    (hspeed : t.speedRaw = s.speedRaw) (herr : t.errCount = s.errCount) :
    ∃ v, exec i s = .next { s with out := some v } ∧ exec i t = .next { t with out := some v } := by
  cases i with
  | snapshot => exact ⟨_, exec_snapshot_eq s, by rw [exec_snapshot_eq, hslots]⟩
  | speed => exact ⟨_, exec_speed_eq s, by rw [exec_speed_eq, hspeed]⟩
  | errcnt => exact ⟨_, exec_errcnt_eq s, by rw [exec_errcnt_eq, herr]⟩
  | _ => exact nomatch hi

/-! ### The rows of R157 -/

/-- The byte's step is the same before and after a read, which writes `out` only. -/
theorem byte_read_commute {b : Byte} {i : Instr} {s t t' : State} (hi : i.role = .consumer)
    (h : andThen (deliver b s) (exec i) = .next t) (h' : andThen (exec i s) (deliver b) = .next t') :
    { t with out := none } = { t' with out := none } := by
  obtain ⟨u, hu, hread⟩ := andThen_eq_next h
  obtain ⟨w, hw⟩ := exec_of_consumer hi u
  obtain ⟨v, hv⟩ := exec_of_consumer hi s
  rw [hv s.out, andThen_next, deliver_with_out, hu] at h'
  rw [hw u.out] at hread
  cases hread
  cases h'
  rfl

/-- The byte finds the block halted, and is ignored (R88). -/
theorem byte_after_halting {i : Instr} (hi : i = .close ∨ i = .rxfail) (b : Byte) (s : State) :
    andThen (exec i s) (deliver b) = exec i s := by
  obtain ⟨c, hc⟩ := exec_of_halting hi s
  rw [hc s.out, andThen_next, deliver_halted b rfl]

/-- The later of CLOSE and RXFAIL finds the block halted and leaves the cause of the first. -/
theorem close_rxfail_first_sets_cause {s : State} (h : s.st ≠ .halted) :
    andThen (exec .close s) (exec .rxfail) = .next { s with st := .halted, haltCause := .closed } ∧
      andThen (exec .rxfail s) (exec .close) = .next { s with st := .halted, haltCause := .ioFailure } := by
  rw [exec_close_running h, exec_rxfail_running h]
  exact ⟨exec_rxfail_halted rfl, exec_close_halted rfl⟩

theorem reset_last_values {i : Instr} {s t : State} (h : andThen (exec i s) (exec .reset) = .next t) :
    t.st = .seekStart ∧ t.slots = Memory.cleared ∧ t.speedRaw = 0#16 ∧ t.errCount = 0#64 ∧ t.haltCause = .none := by
  obtain ⟨u, -, hreset⟩ := andThen_eq_next h
  rw [exec_reset_eq] at hreset
  cases hreset
  exact ⟨rfl, rfl, rfl, rfl, rfl⟩

/-- The second read returns what it would return alone. -/
theorem read_after_read {i j : Instr} (hi : i.role = .consumer) (hj : j.role = .consumer) (s : State) :
    ∃ t, exec j s = .next t ∧ andThen (exec i s) (exec j) = .next t := by
  obtain ⟨v, hv⟩ := exec_of_consumer hi s
  obtain ⟨w, hw⟩ := exec_of_consumer hj s
  exact ⟨_, hw s.out, by rw [hv s.out, andThen_next, hw (some v)]⟩

/-- A halt leaves all that a read returns, and a read all that CLOSE and RXFAIL look at. -/
theorem halting_read_commute {i j : Instr} (hi : i = .close ∨ i = .rxfail) (hj : j.role = .consumer) (s : State) :
    ∃ t u, andThen (exec i s) (exec j) = .next t ∧ andThen (exec j s) (exec i) = .next t ∧
      exec j s = .next u ∧ t.out = u.out := by
  obtain ⟨c, hc⟩ := exec_of_halting hi s
  obtain ⟨v, hrunning, hhalted⟩ :=
    exec_of_consumer_congr hj (s := s) (t := { s with st := .halted, haltCause := c }) rfl rfl rfl
  refine ⟨{ s with st := .halted, haltCause := c, out := some v }, { s with out := some v }, ?_, ?_, hrunning, rfl⟩
  · rw [hc s.out, andThen_next, hhalted]
  · rw [hrunning, andThen_next, hc (some v)]

/-- Settles O56: a lemma per row of R157 and one for its default. -/
theorem coincidentEventsInTheirAllowedOrders : Obligations.CoincidentEventsInTheirAllowedOrders := by
  refine ⟨fun b i s t t' hi => ?byteRead, fun b i s hi => ?haltByte,
    fun s hrun => ⟨rfl, rfl, close_rxfail_first_sets_cause hrun⟩,
    fun i s t hi => ?resetLast, fun i j s hi hj => ?readRead, fun i j s hi hj => ?haltRead⟩
  case byteRead =>
    obtain ⟨hbefore, hafter⟩ := mayPrecede_of_consumer hi (k := .rx) nofun
    exact ⟨hbefore, hafter, byte_read_commute hi⟩
  case haltByte =>
    have hhalt := byte_after_halting hi b s
    rcases hi with rfl | rfl <;> exact ⟨rfl, rfl, hhalt⟩
  case resetLast =>
    obtain ⟨hbefore, hafter⟩ := mayPrecede_reset (mt (eventKindOf_eq_reset_iff i).mp hi)
    exact ⟨hbefore, hafter, reset_last_values⟩
  case readRead =>
    have hkind : eventKindOf i ≠ .reset := by
      intro h
      obtain rfl := (eventKindOf_eq_reset_iff i).mp h
      exact nomatch hi
    exact ⟨(mayPrecede_of_consumer hj hkind).1, read_after_read hi hj s⟩
  case haltRead =>
    have hkind : eventKindOf i ≠ .reset := by rcases hi with rfl | rfl <;> exact nofun
    obtain ⟨hbefore, hafter⟩ := mayPrecede_of_consumer hj hkind
    exact ⟨hbefore, hafter, halting_read_commute hi hj s⟩

end Sys2Proof.Machine
end
